-- ==== Sys2Proof/Word.lean ====
section
/-! DEFINITION. The word types of the LCDNut core (00_scope.md rule R15): bits, nibbles, bytes, operation words. -/

namespace Sys2Proof

/-- A bit: `false` is 0 or logic-low, `true` is 1 or logic-high (rule R15). -/
abbrev Bit := Bool

/-- A 4-bit half of a byte (rules R15, R20). -/
abbrev Nibble := BitVec 4

/-- 8 bits (rule R15). -/
abbrev Byte := BitVec 8

/-- One operation word of `PROG` (rule R81). -/
abbrev Word16 := BitVec 16

/-- The number of a bit of the 8-bit GPIO port, 0..7 (rules R37, R82). -/
abbrev PortBit := Fin 8

/-- The eight cells of an 8-bit port or of the accumulator (rules R33, R37). -/
abbrev Port (α : Type) := Vector α 8

end Sys2Proof
end

