-- ==== Sys2Proof/Config.lean ====
section
/-! DEFINITION. The parameters of a run (00_scope.md rules R8, R11, R13; 10_state.md rule R47): the configuration record, the program, the ROM and the serial waveform, and the free value behind a waveform that is not scripted. -/

namespace Sys2Proof

/-- Which half of its byte a one-shot command presents (rule R11 `ONESHOT_HALF`, decision D5). -/
inductive Half where
  | high
  | low
deriving DecidableEq, Repr

/-- A positive number of seconds, as a fraction: the type of `TICK`. No rule reads it (rule R252).
DESIGN CHOICE (log entry 4): rule R11 says a positive real. -/
structure Seconds where
  num : ℕ+
  den : ℕ+
deriving DecidableEq, Repr

/-- The configuration record `Cfg` (rule R11), less `ROM` and `PROG`, which `Params` holds beside it.
Every duration is a number of ticks. -/
structure Cfg where
  /-- `TICK`, the real duration of one tick. -/
  tick : Seconds
  /-- `T_BIT`, interval between two data-bit samples. -/
  tBit : Nat
  /-- `T_HALF`, "half a bit period". -/
  tHalf : Nat
  /-- `T_POLL`, interval between two polls of RX. -/
  tPoll : Nat
  /-- `T_SETUP`, from the last data-line write to the rise of E. -/
  tSetup : Nat
  /-- `T_STROBE`, time E is held high. -/
  tStrobe : Nat
  /-- `T_PROC`, the wait after every strobe. -/
  tProc : Nat
  /-- `T_PAUSE`, the control loop's long pause. -/
  tPause : Nat
  /-- `T_PWRUP`, the wait at the start of `LCDINIT`. -/
  tPwrup : Nat
  /-- `T_PROC_MIN`, the controller's minimum from one strobe's fall to the next one's rise. -/
  tProcMin : Nat
  /-- `T_STROBE_MIN`, the controller's minimum strobe width. -/
  tStrobeMin : Nat
  pinRS : PortBit
  pinE : PortBit
  pinRX : PortBit
  pinD0 : PortBit
  pinD1 : PortBit
  pinD2 : PortBit
  pinD3 : PortBit
  cmd8bit : Byte
  cmd4bit : Byte
  cmdFunc : Byte
  cmdDispon : Byte
  cmdEntry : Byte
  cmdLine1 : Byte
  cmdLine2 : Byte
  cmdClear : Byte
  cmdHome : Byte
  oneshotHalf : Half
  labelAddr : Byte
deriving DecidableEq, Repr

/-- What a waveform does after its scripted part (log entry 2): hold one level for ever, or follow the
free waveform number `n`. -/
inductive RxTail where
  | hold (v : Bit)
  | free (n : Nat)
deriving DecidableEq, Repr

/-- The serial waveform `rxLine` (rule R8) as plain data: segments (length in ticks, level) from tick 0,
then the tail. An empty script with a free tail is an arbitrary waveform (log entry 2). -/
structure Waveform where
  segs : List (Nat × Bit)
  tail : RxTail
deriving DecidableEq, Repr

/-- FREE VALUE (log entry 2): the level at tick `t` of the unscripted waveform number `n`. The serial
transmitter is an external device (rule R8), and nothing constrains what it sends. -/
opaque Config.rxFree : Nat → Nat → Bit

/-- The label ROM as (address, byte) pairs (20_memory.md rules R60, R62). -/
abbrev Memory := List Host.Cell

/-- The parameters of a run, which no rule writes (rule R47): `Cfg`, `PROG`, `ROM`, `rxLine`. -/
structure Params where
  cfg : Cfg
  prog : List Word16
  rom : Memory
  rxLine : Waveform
deriving DecidableEq, Repr

end Sys2Proof
end

