-- ==== Sys2Proof/Machine/Port.lean ====
section
/-! DEFINITION. Reading and writing one cell of an 8-bit port (10_state.md rules R33, R37). -/

namespace Sys2Proof

/-- The cell of port bit `p`. -/
def Port.read {α : Type} (v : Port α) (p : PortBit) : α := v[p.val]

/-- The port with the cell of port bit `p` set to `a`. -/
def Port.write {α : Type} (v : Port α) (p : PortBit) (a : α) : Port α := v.set p.val a

/-- The port whose eight cells all hold `a`. -/
def Port.fill {α : Type} (a : α) : Port α := Vector.replicate 8 a

end Sys2Proof
end

