-- ==== Sys2Proof/Syntax.lean ====
section
/-! DEFINITION. The abstract syntax of the operation set (30_encoding.md rules R80 to R85). Operand ranges are types: a port bit is 0..7, a selector is one of six, a byte is 8 bits (rule R82), so every term is an operation the encoding can spell. -/

namespace Sys2Proof

/-- The delay selectors 0..5 (rule R85). -/
inductive Selector where
  | half
  | bit
  | proc
  | strobe
  | pause
  | pwrup
deriving DecidableEq, Repr

/-- The eleven operations, one per row of the opcode map (rule R84). -/
inductive Instr where
  /-- `PINOUT p, l` (R115). -/
  | pinout (p : PortBit) (l : Bit)
  /-- `PININ p` (R116). -/
  | pinin (p : PortBit)
  /-- `DELAY s` (R117). -/
  | delay (s : Selector)
  /-- `LCDCMD1 b` (R135). -/
  | lcdcmd1 (b : Byte)
  /-- `LCDCMD b` (R136). -/
  | lcdcmd (b : Byte)
  /-- `LCDCHR b` (R137). -/
  | lcdchr (b : Byte)
  /-- `LCDCHRR` (R138). -/
  | lcdchrr
  /-- `LCDSTR a` (R139). -/
  | lcdstr (a : Byte)
  /-- `LCDINIT` (R140). -/
  | lcdinit
  /-- `RXBYTE` (R161). -/
  | rxbyte
  /-- `JMP t` (R193). -/
  | jmp (t : Byte)
deriving DecidableEq, Repr

end Sys2Proof
end

