-- ==== Sys2Proof/WellFormed.lean ====
section
/-! DEFINITION. Well-formedness: which operation words are legal (30_encoding.md rules R83, R86) and which parameters of a run are well formed (00_scope.md rule R12). Operations themselves are well formed by their types. -/

namespace Sys2Proof

/-- Bits 15:12, read as a number (rule R81). -/
abbrev wordOp (w : Word16) : Nat := w.toNat / 4096

/-- Bits 11:8, read as a number (rule R81). -/
abbrev wordA (w : Word16) : Nat := w.toNat / 256 % 16

/-- Bits 7:0, read as a number (rule R81). -/
abbrev wordImm (w : Word16) : Nat := w.toNat % 256

/-- Rule R86, first bullet: the operation code is 0x0 or 0xC..0xF. -/
def badOpcode (w : Word16) : Bool := wordOp w == 0 || decide (12 ≤ wordOp w)

/-- Rule R86, second bullet: `PINOUT` or `PININ` with `a >= 8`. -/
def badPortBit (w : Word16) : Bool := (wordOp w == 1 || wordOp w == 2) && decide (8 ≤ wordA w)

/-- Rule R86, third bullet: `DELAY` with `a >= 6`. -/
def badSelector (w : Word16) : Bool := wordOp w == 3 && decide (6 ≤ wordA w)

/-- Rule R86, fourth bullet: a field that rule R83 requires to be zero is not zero. `PINOUT` uses `imm8[0]`
as its level; `PININ` and `DELAY` use no part of `imm8`; the others do not use `a`; `LCDCHRR`, `LCDINIT`
and `RXBYTE` use neither. -/
def badUnused (w : Word16) : Bool :=
  (wordOp w == 1 && decide (2 ≤ wordImm w))
  || ((wordOp w == 2 || wordOp w == 3 || wordOp w == 7 || wordOp w == 9 || wordOp w == 10)
      && decide (wordImm w ≠ 0))
  || (decide (4 ≤ wordOp w) && decide (wordOp w ≤ 11) && decide (wordA w ≠ 0))

/-- A word is illegal when any bullet of rule R86 holds. -/
def illegalWord (w : Word16) : Bool := badOpcode w || badPortBit w || badSelector w || badUnused w

/-- The seven pin fields, in the order RS, E, RX, D0, D1, D2, D3 (rule R11). -/
def Cfg.pins (c : Cfg) : List PortBit :=
  [c.pinRS, c.pinE, c.pinRX, c.pinD0, c.pinD1, c.pinD2, c.pinD3]

/-- Rule R12: `T_BIT >= 1`, `T_POLL >= 1`, the pins pairwise distinct (each is in 0..7 by its type), and
1 to 256 program words (`LABEL_ADDR` is in 0..255 by its type). The timing minima are no part of it. -/
def Params.wf (p : Params) : Bool :=
  decide (1 ≤ p.cfg.tBit) && decide (1 ≤ p.cfg.tPoll) && decide p.cfg.pins.Nodup
    && decide (1 ≤ p.prog.length) && decide (p.prog.length ≤ 256)

end Sys2Proof
end

