-- ==== Sys2Proof/Decode.lean ====
section
/-! DEFINITION. The decoder of operation words, total and rejecting by name, then the encoder (30_encoding.md rules R81 to R87), and the opcode table's masks and matches (rule R87). -/

namespace Sys2Proof

/-- Why a word is illegal: the four bullets of rule R86. -/
inductive IllegalWord where
  /-- `op` is 0x0 or 0xC..0xF. -/
  | opcode
  /-- `PINOUT` or `PININ` with `a >= 8`. -/
  | portBit
  /-- `DELAY` with `a >= 6`. -/
  | selector
  /-- a field that must be zero is not. -/
  | unusedField
deriving DecidableEq, Repr

/-- The answer of the decoder: exactly one operation, or illegal (rule R87). -/
inductive Decoded where
  | op (i : Instr)
  | illegal (why : IllegalWord)
deriving DecidableEq, Repr

/-- The field `op`, bits 15:12 (rule R81). -/
def opField (w : Word16) : BitVec 4 := w.extractLsb' 12 4

/-- The field `a`, bits 11:8 (rule R81). -/
def aField (w : Word16) : BitVec 4 := w.extractLsb' 8 4

/-- The field `imm8`, bits 7:0 (rule R81). -/
def immField (w : Word16) : Byte := w.extractLsb' 0 8

/-- A port bit from `a`: `a[3]` must be 0 (rule R82). -/
def portBitOf (a : BitVec 4) : Option PortBit :=
  if h : a.toNat < 8 then some ⟨a.toNat, h⟩ else none

/-- A delay selector from `a`: 0..5 (rules R82, R85). -/
def selectorOf (a : BitVec 4) : Option Selector :=
  match a.toNat with
  | 0 => some .half
  | 1 => some .bit
  | 2 => some .proc
  | 3 => some .strobe
  | 4 => some .pause
  | 5 => some .pwrup
  | _ => none

/-- An operation whose `a` must be zero (rule R83). -/
def withZeroA (w : Word16) (i : Instr) : Decoded :=
  if aField w = 0 then .op i else .illegal .unusedField

/-- An operation whose `imm8` must be zero (rule R83). -/
def withZeroImm (w : Word16) (d : Decoded) : Decoded :=
  if immField w = 0 then d else .illegal .unusedField

/-- A port-bit operation (rule R82). -/
def withPortBit (w : Word16) (f : PortBit → Decoded) : Decoded :=
  match portBitOf (aField w) with
  | some p => f p
  | none => .illegal .portBit

/-- Decode one operation word (rules R84, R87). -/
def decode (w : Word16) : Decoded :=
  match (opField w).toNat with
  | 1 => withPortBit w fun p =>
      if (immField w).toNat < 2 then .op (.pinout p ((immField w).getLsbD 0)) else .illegal .unusedField
  | 2 => withPortBit w fun p => withZeroImm w (.op (.pinin p))
  | 3 =>
    match selectorOf (aField w) with
    | some s => withZeroImm w (.op (.delay s))
    | none => .illegal .selector
  | 4 => withZeroA w (.lcdcmd1 (immField w))
  | 5 => withZeroA w (.lcdcmd (immField w))
  | 6 => withZeroA w (.lcdchr (immField w))
  | 7 => withZeroImm w (withZeroA w .lcdchrr)
  | 8 => withZeroA w (.lcdstr (immField w))
  | 9 => withZeroImm w (withZeroA w .lcdinit)
  | 10 => withZeroImm w (withZeroA w .rxbyte)
  | 11 => withZeroA w (.jmp (immField w))
  | _ => .illegal .opcode

/-- The decoder's answer as an option, for the host's question about an opcode-table row: a row is one
16-bit word (rule R81), and the bits above `nbits` are 0. -/
def decodeTableWord (nbits w : Nat) : Option Instr :=
  match decode (BitVec.ofNat 16 (w % 2 ^ nbits)) with
  | .op i => some i
  | .illegal _ => none

/-- The number of a selector (rule R85). -/
def selectorNumber : Selector → BitVec 4
  | .half => 0
  | .bit => 1
  | .proc => 2
  | .strobe => 3
  | .pause => 4
  | .pwrup => 5

/-- A word from its three fields (rule R81). -/
def wordOf (op a : BitVec 4) (imm : Byte) : Word16 := op ++ a ++ imm

/-- The word of an operation (rule R84). -/
def encode : Instr → Word16
  | .pinout p l => wordOf 0x1 (BitVec.ofNat 4 p.val) (if l then 1 else 0)
  | .pinin p => wordOf 0x2 (BitVec.ofNat 4 p.val) 0
  | .delay s => wordOf 0x3 (selectorNumber s) 0
  | .lcdcmd1 b => wordOf 0x4 0 b
  | .lcdcmd b => wordOf 0x5 0 b
  | .lcdchr b => wordOf 0x6 0 b
  | .lcdchrr => wordOf 0x7 0 0
  | .lcdstr a => wordOf 0x8 0 a
  | .lcdinit => wordOf 0x9 0 0
  | .rxbyte => wordOf 0xA 0 0
  | .jmp t => wordOf 0xB 0 t

/-- One row of the opcode table: the bits that are fixed, and their values. -/
structure OpRow where
  mask : Word16
  value : Word16
deriving DecidableEq, Repr

/-- The row of an operation's mnemonic (rules R84, R87; opcode_table.json). -/
def rowOf : Instr → OpRow
  | .pinout _ _ => ⟨0xF8FE, 0x1000⟩
  | .pinin _ => ⟨0xF8FF, 0x2000⟩
  | .delay _ => ⟨0xF0FF, 0x3000⟩
  | .lcdcmd1 _ => ⟨0xFF00, 0x4000⟩
  | .lcdcmd _ => ⟨0xFF00, 0x5000⟩
  | .lcdchr _ => ⟨0xFF00, 0x6000⟩
  | .lcdchrr => ⟨0xFFFF, 0x7000⟩
  | .lcdstr _ => ⟨0xFF00, 0x8000⟩
  | .lcdinit => ⟨0xFFFF, 0x9000⟩
  | .rxbyte => ⟨0xFFFF, 0xA000⟩
  | .jmp _ => ⟨0xFF00, 0xB000⟩

/-- The eleven rows, in the table's order. -/
def opcodeTable : List OpRow :=
  [⟨0xF8FE, 0x1000⟩, ⟨0xF8FF, 0x2000⟩, ⟨0xF0FF, 0x3000⟩, ⟨0xFF00, 0x4000⟩, ⟨0xFF00, 0x5000⟩,
   ⟨0xFF00, 0x6000⟩, ⟨0xFFFF, 0x7000⟩, ⟨0xFF00, 0x8000⟩, ⟨0xFFFF, 0x9000⟩, ⟨0xFFFF, 0xA000⟩,
   ⟨0xFF00, 0xB000⟩]

/-- The word matches the row: `(w & mask) == match` (rule R87). -/
def OpRow.hits (r : OpRow) (w : Word16) : Bool := w &&& r.mask == r.value

end Sys2Proof
end

