-- ==== Sys2Proof/Machine/Memory.lean ====
section
/-! DEFINITION. The label ROM (20_memory.md rules R60 to R62): reading one byte, the canonical form, and the loading of bytes from outside. The block itself has no memory write. -/

namespace Sys2Proof

/-- What an unlisted ROM address reads as: 0x00 (rule R14, "every other ROM byte 0x00"; log entry 8). -/
def Memory.blank : Byte := 0

/-- The number of ROM bytes, addresses 0x00..0xFF (rule R60). -/
def Memory.size : Nat := 256

/-- The byte at an address. -/
def Memory.read : Memory → Nat → Byte
  | [], _ => Memory.blank
  | (k, v) :: rest, a => if k = a then v else Memory.read rest a

/-- `MemRead(a, 1)`: one byte, or `none` where rule R61 raises `F_ROM_RANGE`. -/
def memRead (m : Memory) (a : Nat) : Option Byte :=
  if Memory.size ≤ a then none else some (m.read a)

/-- Set the entry of one address, keeping the canonical form. -/
def Memory.put : Memory → Nat → Byte → Memory
  | [], a, b => if b = Memory.blank then [] else [(a, b)]
  | (k, v) :: rest, a, b =>
    if a < k then (if b = Memory.blank then (k, v) :: rest else (a, b) :: (k, v) :: rest)
    else if a = k then (if b = Memory.blank then rest else (k, b) :: rest)
    else (k, v) :: Memory.put rest a b

/-- Place one byte; an address past the top of ROM does not exist and takes none. No operation of the block
does this: it is how a ROM is made before a run (rule R47). -/
def Memory.store (m : Memory) (a : Nat) (b : Byte) : Memory :=
  if a < Memory.size then m.put a b else m

/-- Place bytes at rising addresses from `a`. -/
def Memory.storeAll (m : Memory) : Nat → List Byte → Memory
  | _, [] => m
  | a, b :: bs => Memory.storeAll (m.store a b) (a + 1) bs

/-- Every address of the list is at or above the bound and below 256, they rise strictly, and no entry is
blank. -/
def Memory.wfFrom : Nat → Memory → Bool
  | _, [] => true
  | lo, (k, v) :: rest =>
    decide (lo ≤ k) && decide (k < Memory.size) && decide (v ≠ Memory.blank) && Memory.wfFrom (k + 1) rest

/-- The canonical form: addresses of ROM strictly rising, no entry equal to what an unlisted address reads as. -/
def Memory.wf (m : Memory) : Bool := Memory.wfFrom 0 m

/-- The bytes of the label "Char from Serial" and its zero byte (rule R62, decision D35). -/
def labelBytes : List Byte :=
  [0x43, 0x68, 0x61, 0x72, 0x20, 0x66, 0x72, 0x6F, 0x6D, 0x20, 0x53, 0x65, 0x72, 0x69, 0x61, 0x6C, 0x00]

/-- The ROM that holds the label at an address and 0x00 elsewhere (rules R14, R62). -/
def labelRom (a : Byte) : Memory := Memory.storeAll [] a.toNat labelBytes

end Sys2Proof
end

