-- ==== Sys2Proof/Machine/Waveform.lean ====
section
/-! DEFINITION. The level of the serial input at each tick (00_scope.md rule R8), and the waveform of serial frames (30_encoding.md rule R93). -/

namespace Sys2Proof

/-- The level a script gives at a tick, `none` past its last segment. -/
def segLevel : List (Nat × Bit) → Nat → Option Bit
  | [], _ => none
  | (d, v) :: rest, t => if t < d then some v else segLevel rest (t - d)

/-- The level of the tail at a tick. -/
def RxTail.level : RxTail → Nat → Bit
  | .hold v, _ => v
  | .free n, t => Config.rxFree n t

/-- `rxLine(t)`, the level of the serial input pin at tick `t` (rule R8). -/
def Waveform.level (w : Waveform) (t : Nat) : Bit := (segLevel w.segs t).getD (w.tail.level t)

/-- The idle line: 1 at every tick (rule R160). -/
def Waveform.idle : Waveform := ⟨[], .hold true⟩

/-- One serial frame: byte `byte` sent with bit period `period` from the edge tick `edge` (rule R93). -/
structure SerialFrame where
  edge : Nat
  period : Nat
  byte : Byte
deriving DecidableEq, Repr

/-- Cells 0..8 of a frame: the start bit, then the data bits, least significant first (rules R64, R93). -/
def SerialFrame.cells (f : SerialFrame) : List (Nat × Bit) :=
  [(f.period, false), (f.period, f.byte.getLsbD 0), (f.period, f.byte.getLsbD 1),
   (f.period, f.byte.getLsbD 2), (f.period, f.byte.getLsbD 3), (f.period, f.byte.getLsbD 4),
   (f.period, f.byte.getLsbD 5), (f.period, f.byte.getLsbD 6), (f.period, f.byte.getLsbD 7)]

/-- The script of frames that do not overlap, in rising order, from a position already reached: idle up to
each edge, then its cells (rule R93, last sentence). -/
def framesFrom : Nat → List SerialFrame → List (Nat × Bit)
  | _, [] => []
  | pos, f :: fs => (f.edge - pos, true) :: f.cells ++ framesFrom (f.edge + 9 * f.period) fs

/-- Several frames as one waveform, idle before, between and after (rule R93). -/
def Waveform.ofFrames (fs : List SerialFrame) : Waveform := ⟨framesFrom 0 fs, .hold true⟩

/-- `Frame(e, P, B)` (rule R93). -/
def Waveform.frame (e p : Nat) (b : Byte) : Waveform := Waveform.ofFrames [⟨e, p, b⟩]

end Sys2Proof
end

