-- ==== Sys2Proof/Machine/Program.lean ====
section
/-! DEFINITION. The spec's configurations and its control program: the defaults of 00_scope.md rule R11, the test configuration `TP` of rule R14, the figures of the reference configuration of rule R13, the pseudo-instructions of 30_encoding.md rule R89, and `CTRL` of 43_control.md rule R195. -/

namespace Sys2Proof

/-- The test configuration `TP` with the default pin map and command bytes (rules R11, R14). `TICK` is open
(rule R11): DESIGN CHOICE (log entry 4), 1/1843200 s, which makes 16 ticks one bit at 115200 baud. -/
def Cfg.tp : Cfg where
  tick := ⟨1, 1843200⟩
  tBit := 16
  tHalf := 8
  tPoll := 1
  tSetup := 0
  tStrobe := 2
  tProc := 50
  tPause := 500
  tPwrup := 100
  tProcMin := 50
  tStrobeMin := 1
  pinRS := 0
  pinE := 1
  pinRX := 2
  pinD0 := 4
  pinD1 := 5
  pinD2 := 6
  pinD3 := 7
  cmd8bit := 0x30
  cmd4bit := 0x20
  cmdFunc := 0x28
  cmdDispon := 0x0C
  cmdEntry := 0x06
  cmdLine1 := 0x80
  cmdLine2 := 0xC0
  cmdClear := 0x01
  cmdHome := 0x02
  oneshotHalf := .high
  labelAddr := 0x00

/-- The figures of the reference configuration, in real units (rule R13). -/
structure ReferenceFigures where
  /-- Serial rate in baud. -/
  baud : ℕ+
  /-- Data bits of a frame. -/
  dataBits : Nat
  /-- Parity bits of a frame. -/
  parityBits : Nat
  /-- The source's delay constant "accounting for instruction overhead", which no rule uses (90_conflicts.md C5). -/
  delayConstant : Seconds
  /-- "minimum inter-command delay", the reference of `T_PROC_MIN`. -/
  procMin : Seconds
  /-- "minimum strobe pulse width", the reference of `T_STROBE_MIN`. -/
  strobeMin : Seconds
  /-- The label, with its zero byte (rule R62). -/
  label : List Byte
deriving DecidableEq, Repr

/-- The reference configuration of the source (rule R13): 115200 baud, 8 data bits, no parity, ≈ 8.5 µs, ≈ 10 ms,
≈ 1 µs, "Char from Serial". The approximate figures are held as if exact: DESIGN CHOICE (log entry 19). -/
def ReferenceFigures.source : ReferenceFigures where
  baud := 115200
  dataBits := 8
  parityBits := 0
  delayConstant := ⟨17, 2000000⟩
  procMin := ⟨1, 100⟩
  strobeMin := ⟨1, 1000000⟩
  label := labelBytes

/-- The bit period at the reference rate, the reference of `T_BIT` (rules R11, R13; 90_conflicts.md C5). -/
def ReferenceFigures.bitPeriod (r : ReferenceFigures) : Seconds := ⟨1, r.baud⟩

/-- Bit cells of one frame: start, eight data bits, stop (rules R93, R94). -/
def frameCells : Nat := 10

/-- The length of one frame at the reference rate (rule R94). -/
def ReferenceFigures.frameLength (r : ReferenceFigures) : Seconds := ⟨10, r.baud⟩

/-- The least number of ticks that last at least a real duration. DESIGN CHOICE (log entry 19). -/
def Seconds.ticks (tick d : Seconds) : Nat :=
  ((d.num * tick.den : ℕ) + (d.den * tick.num - 1)) / (d.den * tick.num)

/-- A configuration with the reference values of `T_BIT`, `T_PROC_MIN` and `T_STROBE_MIN`, in ticks of its own length
(rule R13 uses the figures for these three only). The number of ticks is DESIGN CHOICE (log entry 19). -/
def Cfg.withReference (c : Cfg) (r : ReferenceFigures) : Cfg :=
  { c with
    tBit := c.tick.ticks r.bitPeriod
    tProcMin := c.tick.ticks r.procMin
    tStrobeMin := c.tick.ticks r.strobeMin }

/-- `LCDPINS` (rule R89). -/
def Cfg.lcdpins (c : Cfg) : List Instr :=
  [.pinout c.pinRS false, .pinout c.pinE false, .pinout c.pinD0 false, .pinout c.pinD1 false,
   .pinout c.pinD2 false, .pinout c.pinD3 false]

/-- `LINE1` (rule R89). -/
def Cfg.line1 (c : Cfg) : List Instr := [.lcdcmd c.cmdLine1]

/-- `LINE2` (rule R89). -/
def Cfg.line2 (c : Cfg) : List Instr := [.lcdcmd c.cmdLine2]

/-- `CLRHOME` (rule R89). -/
def Cfg.clrhome (c : Cfg) : List Instr := [.lcdcmd c.cmdClear, .lcdcmd c.cmdHome]

/-- `HALT` at word index `i`, the jump to itself (rules R89, R198). -/
def haltAt (i : Byte) : List Instr := [.jmp i]

/-- The init phase of the control program, words 0 to 6 (rules R195, R196). -/
def Cfg.ctrlInit (c : Cfg) : List Instr := c.lcdpins ++ [.lcdinit]

/-- The display phase, words 7 to 15 (rules R195, R197). -/
def Cfg.ctrlDisplay (c : Cfg) : List Instr :=
  c.line1 ++ [.lcdstr c.labelAddr] ++ c.line2 ++ [.rxbyte, .lcdchrr, .delay .pause] ++ c.clrhome ++ [.jmp 7]

/-- The control program `CTRL` (rule R195). -/
def Cfg.ctrl (c : Cfg) : List Instr := c.ctrlInit ++ c.ctrlDisplay

/-- The words of a program. -/
def wordsOf (l : List Instr) : List Word16 := l.map encode

/-- A program with one word set, padded with the illegal all-zero word up to it (a load from outside). -/
def placeWord (l : List Word16) (i : Nat) (w : Word16) : List Word16 :=
  (l ++ List.replicate (i + 1 - l.length) 0).set i w

/-- The parameters of the spec's own run: `TP`, `CTRL`, the label ROM, the idle line (rules R11, R14, R62,
95_test_vectors.md section 1). DESIGN CHOICE (log entry 3). -/
def Params.tp : Params where
  cfg := Cfg.tp
  prog := wordsOf Cfg.tp.ctrl
  rom := labelRom Cfg.tp.labelAddr
  rxLine := Waveform.idle

end Sys2Proof
end

