-- ==== Sys2Proof/Machine/State.lean ====
section
/-! DEFINITION. The state of the block as plain data (10_state.md rule R30), the outcomes of a step that are no next state, and the state after reset (rules R45, R240). -/

namespace Sys2Proof.Machine

/-- The value of a direction cell (rule R37). -/
inductive Direction where
  | input
  | output
deriving DecidableEq, Repr

/-- The receiver's micro-state `rxs` (rule R34). -/
inductive RxState where
  | none
  | hunt
  | sample
deriving DecidableEq, Repr

/-- An event of the trace (00_scope.md rule R19), with the tick at which it happens. -/
inductive Event where
  /-- `DIR(p, d, t)`: direction write. -/
  | dir (p : PortBit) (d : Direction) (t : Nat)
  /-- `W(p, v, t)`: output-latch write. -/
  | write (p : PortBit) (v : Bit) (t : Nat)
  /-- `R(p, v, t)`: input sample. -/
  | read (p : PortBit) (v : Bit) (t : Nat)
  /-- `S(rs, n, tr, tf, edge)`: strobe record. -/
  | strobe (rs : Bit) (n : Nibble) (tr tf : Nat) (edge : Bool)
deriving DecidableEq, Repr

/-- The six fault codes (60_exceptions.md rule R211); no others exist. -/
inductive FaultCode where
  /-- 1 `F_ILLEGAL`: the fetched word is illegal. -/
  | illegal
  /-- 2 `F_PC_RANGE`: `pc >= length(PROG)` at a fetch. -/
  | pcRange
  /-- 3 `F_DIR_OUT`: one of RS, E, D0..D3 is not an output. -/
  | dirOut
  /-- 4 `F_DIR_IN`: RX is not an input at the entry of `RXBYTE`. -/
  | dirIn
  /-- 5 `F_UNWRITTEN`: `LCDCHRR` while `rxd` is unwritten. -/
  | unwritten
  /-- 6 `F_ROM_RANGE`: a string ran past address 0xFF. -/
  | romRange
deriving DecidableEq, Repr

/-- A recorded fault: its code, its `pc` and the word there (rules R42, R212). -/
structure FaultRecord where
  code : FaultCode
  pc : Nat
  word : Word16
deriving DecidableEq, Repr

/-- Why a step stops the machine. -/
inductive Fault where
  /-- Raised by `step` from a state whose `fault` is set: no rule takes a step from it (rules R190, R212).
  The record of the fault is the result of the run. Safe. -/
  | stopped (code : FaultCode) (pc : Nat) (word : Word16)
  /-- Raised by a strobe that would read the unwritten latch of a port bit: "Any read of a `⊥` cell by a rule is a
  fault" (00_scope.md rule R18). No run reaches it (41_lcd.md rule R130). Safe (log entry 6). -/
  | unwrittenLatch (p : PortBit)
  /-- Raised by the last sample of `RXBYTE` if it would copy an unwritten accumulator cell: "Any read of a `⊥` cell by
  a rule is a fault" (00_scope.md rule R18). No run reaches it (10_state.md rule R33). Safe (log entry 6). -/
  | unwrittenAcc
deriving DecidableEq, Repr

/-- Why an instruction is refused. -/
inductive Refusal where
  /-- An arm of `exec` whose instruction has no meaning yet; no arm uses it. Safe. -/
  | notModelled (mnemonic : String)
  /-- Raised by `launch` and by `step` where the parameters are not well formed: such a configuration "is
  refused at launch; it is not run" (rule R12). Safe (log entry 7). -/
  | illFormedConfig
deriving DecidableEq, Repr

/-- The state of the block (rule R30). `none` in a cell of `out`, `dir`, `rxd` or `acc` is the spec's own
unwritten mark (rule R18). -/
structure State where
  /-- Index of the operation being executed (R35). -/
  pc : Nat
  /-- Current tick (R36). -/
  now : Nat
  /-- GPIO output latch (R37). -/
  out : Port (Option Bit)
  /-- GPIO direction register (R37). -/
  dir : Port (Option Direction)
  /-- Received-byte register (R32). -/
  rxd : Option Byte
  /-- Receiver micro-state (R34). -/
  rxs : RxState
  /-- Index of the next data bit to sample (R34). -/
  rxk : Fin 8
  /-- In-flight receive accumulator (R33). -/
  acc : Port (Option Bit)
  /-- Every event so far, in order (R43). -/
  trace : List Event
  /-- Recorded fault (R42). -/
  fault : Option FaultRecord
  /-- THE MODEL'S OWN FIELD (log entry 1): the parameters of the run, which no rule writes (R47). -/
  params : Params
deriving DecidableEq, Repr

/-- The outcome of a step or a meaning. -/
abbrev Result := Host.Outcome State Fault Refusal

/-- The power-on state for given parameters (rules R45, R240). -/
def State.powerOn (p : Params) : State where
  pc := 0
  now := 0
  out := Port.fill none
  dir := (Port.fill none).write p.cfg.pinRX (some .input)
  rxd := none
  rxs := .none
  rxk := 0
  acc := Port.fill none
  trace := []
  fault := none
  params := p

/-- The machine right after reset (rules R45, R240), with the spec's own parameters (log entry 3). -/
def State.reset : State := State.powerOn Params.tp

end Sys2Proof.Machine
end

