-- ==== Sys2Proof/Machine/Flags.lean ====
section
/-! DEFINITION. The block has no flags (10_state.md rule R40). Its data-dependent tests use the value just read and leave nothing behind: they stand here. -/

namespace Sys2Proof.Machine

/-- A sample of 0 is a start bit (42_uart_rx.md rules R160, R162). -/
def startBitSeen (v : Bit) : Bool := !v

/-- The zero byte ends a string (41_lcd.md rule R139). -/
def isTerminator (c : Byte) : Bool := c == 0

/-- `edge`: E was low before the strobe (41_lcd.md rule R132). -/
def risingEdge (e : Bit) : Bool := !e

end Sys2Proof.Machine
end

