-- ==== Sys2Proof/Machine/Operands.lean ====
section
/-! DEFINITION. Operand forms: the duration of a selector, the roles of port bits, the halves of a byte, and the byte built from sampled bits (30_encoding.md rules R82, R85, R90; 20_memory.md rules R64, R65). -/

namespace Sys2Proof.Machine

/-- `dur(s)` (rules R85, R117). -/
def dur (c : Cfg) : Selector → Nat
  | .half => c.tHalf
  | .bit => c.tBit
  | .proc => c.tProc
  | .strobe => c.tStrobe
  | .pause => c.tPause
  | .pwrup => c.tPwrup

/-- The six LCD pins in the order of the entry check: RS, E, D0, D1, D2, D3 (rule R130). -/
def lcdPins (c : Cfg) : List PortBit := [c.pinRS, c.pinE, c.pinD0, c.pinD1, c.pinD2, c.pinD3]

/-- `b[7:4]` (rule R65). -/
def highNibble (b : Byte) : Nibble := b.extractLsb' 4 4

/-- `b[3:0]` (rule R65). -/
def lowNibble (b : Byte) : Nibble := b.extractLsb' 0 4

/-- The half of a byte that a one-shot command presents (rules R90, R134). -/
def oneshotNibble (c : Cfg) (b : Byte) : Nibble :=
  match c.oneshotHalf with
  | .high => highNibble b
  | .low => lowNibble b

/-- `{b3, b2, b1, b0}` (rules R15, R132). -/
def nibbleOf (b3 b2 b1 b0 : Bit) : Nibble :=
  BitVec.ofBool b3 ++ BitVec.ofBool b2 ++ BitVec.ofBool b1 ++ BitVec.ofBool b0

/-- `{b7, .., b0}` (rules R15, R164). -/
def byteOf (b7 b6 b5 b4 b3 b2 b1 b0 : Bit) : Byte := nibbleOf b7 b6 b5 b4 ++ nibbleOf b3 b2 b1 b0

/-- `{acc[7], .., acc[0]}`, `none` where a cell is unwritten (rules R18, R164). -/
def accByte (acc : Port (Option Bit)) : Option Byte :=
  match acc.read 7, acc.read 6, acc.read 5, acc.read 4, acc.read 3, acc.read 2, acc.read 1, acc.read 0 with
  | some b7, some b6, some b5, some b4, some b3, some b2, some b1, some b0 =>
    some (byteOf b7 b6 b5 b4 b3 b2 b1 b0)
  | _, _, _, _, _, _, _, _ => none

/-- The numeric view of a direction: `OUT` is 1 and `IN` is 0 (rule R37, decision D10). -/
def Direction.toBit : Direction → Bit
  | .input => false
  | .output => true

/-- The number of a fault code (60_exceptions.md rule R211). -/
def FaultCode.number : FaultCode → Nat
  | .illegal => 1
  | .pcRange => 2
  | .dirOut => 3
  | .dirIn => 4
  | .unwritten => 5
  | .romRange => 6

/-- The commands of `LCDINIT` (41_lcd.md rule R140): a one-shot command, or a two-nibble command. -/
inductive InitSend where
  | oneShot (b : Byte)
  | twoNibble (b : Byte)
deriving DecidableEq, Repr

/-- The seven commands of `LCDINIT`, in order (rule R140). -/
def initSends (c : Cfg) : List InitSend :=
  [.oneShot c.cmd8bit, .oneShot c.cmd8bit, .oneShot c.cmd8bit, .oneShot c.cmd4bit,
   .twoNibble c.cmdFunc, .twoNibble c.cmdDispon, .twoNibble c.cmdEntry]

end Sys2Proof.Machine
end

