-- ==== Sys2Proof/Machine/Ops.lean ====
section
/-! DEFINITION. The named operations every rule is written with (00_scope.md rule R17): events, pins, time, fetch, faults, and the shared LCD sequences (41_lcd.md rules R130 to R134). -/

namespace Sys2Proof.Machine

/-- Go on from a next state; a stop stays a stop. -/
def andThen (r : Result) (k : State → Result) : Result :=
  match r with
  | .next s => k s
  | .fault f => .fault f
  | .refused f => .refused f

/-- `Emit(e)` (rules R17, R43). -/
def State.emit (s : State) (e : Event) : State := { s with trace := s.trace ++ [e] }

/-- `PinWrite(p, v)` (40_gpio_timing.md rule R110). -/
def State.pinWrite (s : State) (p : PortBit) (v : Bit) : State :=
  { s with out := s.out.write p (some v) }.emit (.write p v s.now)

/-- `PinDir(p, d)` (rule R111). -/
def State.pinDir (s : State) (p : PortBit) (d : Direction) : State :=
  { s with dir := s.dir.write p (some d) }.emit (.dir p d s.now)

/-- The level of the serial input at the current tick, `rxLine(now)` (rules R39, R112). -/
def State.rxLevel (s : State) : Bit := s.params.rxLine.level s.now

/-- The record of a `PinRead(p)` (rule R112); the value read is `rxLevel`. -/
def State.pinRead (s : State) (p : PortBit) : State := s.emit (.read p s.rxLevel s.now)

/-- `Delay(d)` (rule R113). -/
def State.delay (s : State) (d : Nat) : State := { s with now := s.now + d }

/-- `pc <- pc + 1` (43_control.md rule R192). -/
def State.advance (s : State) : State := { s with pc := s.pc + 1 }

/-- `pc <- target` (rule R192). -/
def State.jumpTo (s : State) (t : Nat) : State := { s with pc := t }

/-- The word of `PROG` at `pc`, `none` past the end (rule R190). -/
def State.fetchWord (s : State) : Option Word16 := s.params.prog[s.pc]?

/-- The word a fault records: 0x0000 for `F_PC_RANGE`, else `PROG[pc]` (60_exceptions.md rule R212). -/
def State.faultWord (s : State) (code : FaultCode) : Word16 :=
  if code = .pcRange then 0 else s.fetchWord.getD 0

/-- `raise Fault(code, info)`: the record is written and nothing else changes (rule R212). `info` explains the
cause to the reader and is no part of the record (log entry 9). -/
def State.raiseFault (s : State) (code : FaultCode) (_info : Nat) : State :=
  { s with fault := some ⟨code, s.pc, s.faultWord code⟩ }

/-- Read the latch of a port bit and go on. "Any read of a `⊥` cell by a rule is a fault" (00_scope.md rule R18): an
unwritten latch stops the machine. After the entry check no latch is unwritten (41_lcd.md rule R130). -/
def withLatch (s : State) (p : PortBit) (k : Bit → Result) : Result :=
  match s.out.read p with
  | some v => k v
  | none => .fault (.unwrittenLatch p)

/-- `LcdCheck()`: the first of RS, E, D0..D3 that is not an output (rule R130). -/
def State.lcdCheck (s : State) : Option PortBit :=
  (lcdPins s.params.cfg).find? fun p => decide (s.dir.read p ≠ some .output)

/-- Run an LCD operation after its entry check, or raise `F_DIR_OUT` before any event (rule R130). -/
def withLcdCheck (s : State) (k : State → Result) : Result :=
  match s.lcdCheck with
  | some p => .next (s.raiseFault .dirOut p.val)
  | none => k s

/-- `NibbleOut(n)`: D3 first (rule R131). -/
def State.nibbleOut (s : State) (n : Nibble) : State :=
  (((s.pinWrite s.params.cfg.pinD3 (n.getLsbD 3)).pinWrite s.params.cfg.pinD2 (n.getLsbD 2)).pinWrite
    s.params.cfg.pinD1 (n.getLsbD 1)).pinWrite s.params.cfg.pinD0 (n.getLsbD 0)

/-- E is raised after the setup time (rule R132). -/
def State.raiseE (s : State) : State := (s.delay s.params.cfg.tSetup).pinWrite s.params.cfg.pinE true

/-- E is lowered after the strobe time (rule R132). -/
def State.lowerE (s : State) : State := (s.delay s.params.cfg.tStrobe).pinWrite s.params.cfg.pinE false

/-- `Strobe()` (rule R132): E is pulsed, the transfer is recorded, the processing delay passes. -/
def strobe (s : State) : Result :=
  withLatch s s.params.cfg.pinE fun e =>
    let s1 := s.raiseE
    let s2 := s1.lowerE
    withLatch s2 s2.params.cfg.pinRS fun rs =>
    withLatch s2 s2.params.cfg.pinD3 fun b3 =>
    withLatch s2 s2.params.cfg.pinD2 fun b2 =>
    withLatch s2 s2.params.cfg.pinD1 fun b1 =>
    withLatch s2 s2.params.cfg.pinD0 fun b0 =>
      .next ((s2.emit (.strobe rs (nibbleOf b3 b2 b1 b0) s1.now s2.now (risingEdge e))).delay
        s2.params.cfg.tProc)

/-- Present a nibble and strobe it: one transfer (rules R90, R133). -/
def transfer (n : Nibble) (s : State) : Result := strobe (s.nibbleOut n)

/-- `Send2(rs, b)`: RS once, then the high and the low nibble (rule R133). -/
def send2 (rs : Bit) (b : Byte) (s : State) : Result :=
  andThen (transfer (highNibble b) (s.pinWrite s.params.cfg.pinRS rs)) (transfer (lowNibble b))

/-- `Send1(b)`: one transfer of one half in command mode (rule R134). -/
def send1 (b : Byte) (s : State) : Result :=
  transfer (oneshotNibble s.params.cfg b) (s.pinWrite s.params.cfg.pinRS false)

/-- One command of `LCDINIT` (rule R140). -/
def sendInit (c : InitSend) (s : State) : Result :=
  match c with
  | .oneShot b => send1 b s
  | .twoNibble b => send2 false b s

/-- The commands of `LCDINIT`, one after the other (rule R140). -/
def sendAll : List InitSend → State → Result
  | [], s => .next s
  | c :: cs, s => andThen (sendInit c s) (sendAll cs)

/-- The loop of `LCDSTR` with `left` ROM bytes from the current address to the top of ROM, so that the
address is `256 - left` (rule R139). At address 256 the read raises `F_ROM_RANGE` (rule R61). -/
def sendString : Nat → State → Result
  | 0, s => .next (s.raiseFault .romRange Memory.size)
  | left + 1, s =>
    match memRead s.params.rom (Memory.size - (left + 1)) with
    | none => .next (s.raiseFault .romRange (Memory.size - (left + 1)))
    | some c =>
      if isTerminator c then .next s.advance
      else andThen (send2 true c s) (sendString left)

/-- The level of a pin (10_state.md rule R39): the latch while it is an output, the waveform for an RX pin
that is an input; `none` where the level is another party's or unwritten. An observation only. -/
def State.pinLevel (s : State) (p : PortBit) : Option Bit :=
  match s.dir.read p with
  | some .output => s.out.read p
  | some .input => if p = s.params.cfg.pinRX then some s.rxLevel else none
  | none => none

end Sys2Proof.Machine
end

