-- ==== Sys2Proof/Machine/Control.lean ====
section
/-! DEFINITION. `JMP` (43_control.md rule R193). -/

namespace Sys2Proof.Machine

/-- `JMP t` (rule R193): no fault at the jump itself. -/
def execJmp (t : Byte) (s : State) : Result := .next (s.jumpTo t.toNat)

end Sys2Proof.Machine
end

