-- ==== Sys2Proof/Machine/Gpio.lean ====
section
/-! DEFINITION. `PINOUT`, `PININ`, `DELAY` (40_gpio_timing.md rules R115 to R117). -/

namespace Sys2Proof.Machine

/-- `PINOUT p, l` (rule R115): direction first, then the latch. -/
def execPinout (p : PortBit) (l : Bit) (s : State) : Result :=
  .next ((s.pinDir p .output).pinWrite p l).advance

/-- `PININ p` (rule R116): the latch keeps its value. -/
def execPinin (p : PortBit) (s : State) : Result :=
  .next (s.pinDir p .input).advance

/-- `DELAY s` (rule R117). -/
def execDelay (sel : Selector) (s : State) : Result :=
  .next (s.delay (dur s.params.cfg sel)).advance

end Sys2Proof.Machine
end

