-- ==== Sys2Proof/Machine/Lcd.lean ====
section
/-! DEFINITION. The six LCD operations (41_lcd.md rules R135 to R140). -/

namespace Sys2Proof.Machine

/-- The end of an operation that completes: `pc <- pc + 1` (43_control.md rule R192). -/
def finish (s : State) : Result := .next s.advance

/-- `LCDCMD1 b` (rule R135). -/
def execLcdcmd1 (b : Byte) (s : State) : Result :=
  withLcdCheck s fun s => andThen (send1 b s) finish

/-- `LCDCMD b` (rule R136). -/
def execLcdcmd (b : Byte) (s : State) : Result :=
  withLcdCheck s fun s => andThen (send2 false b s) finish

/-- `LCDCHR b` (rule R137). -/
def execLcdchr (b : Byte) (s : State) : Result :=
  withLcdCheck s fun s => andThen (send2 true b s) finish

/-- `LCDCHRR` (rule R138): the check of `rxd` comes first (60_exceptions.md rule R213). -/
def execLcdchrr (s : State) : Result :=
  match s.rxd with
  | none => .next (s.raiseFault .unwritten 0)
  | some b => withLcdCheck s fun s => andThen (send2 true b s) finish

/-- `LCDSTR a` (rule R139). -/
def execLcdstr (a : Byte) (s : State) : Result :=
  withLcdCheck s fun s => sendString (Memory.size - a.toNat) s

/-- `LCDINIT` (rule R140). -/
def execLcdinit (s : State) : Result :=
  withLcdCheck s fun s =>
    andThen (sendAll (initSends s.params.cfg) (s.delay s.params.cfg.tPwrup)) finish

end Sys2Proof.Machine
end

