-- ==== Sys2Proof/Machine/Receiver.lean ====
section
/-! DEFINITION. `RXBYTE`: its entry step and its HUNT and SAMPLE micro-steps (42_uart_rx.md rules R161 to R164). -/

namespace Sys2Proof.Machine

/-- `RXBYTE`, entry step (rule R161). -/
def execRxbyte (s : State) : Result :=
  if s.dir.read s.params.cfg.pinRX = some .input then
    .next { s with rxd := none, acc := Port.fill none, rxs := .hunt }
  else .next (s.raiseFault .dirIn s.params.cfg.pinRX.val)

/-- HUNT micro-step: one poll of the line (rule R162). -/
def rxHunt (s : State) : Result :=
  if startBitSeen s.rxLevel then
    .next { ((s.pinRead s.params.cfg.pinRX).delay s.params.cfg.tHalf).delay s.params.cfg.tBit with
      rxk := 0, rxs := .sample }
  else .next ((s.pinRead s.params.cfg.pinRX).delay s.params.cfg.tPoll)

/-- The sample of data bit `rxk` into its accumulator cell (rules R163, R164). -/
def State.sampleBit (s : State) : State :=
  { s.pinRead s.params.cfg.pinRX with acc := s.acc.write s.rxk (some s.rxLevel) }

/-- The end of a receive: the byte to `rxd`, the accumulator unwritten, `pc` on (rule R164). "Any read of a `⊥` cell by
a rule is a fault" (00_scope.md rule R18): an unwritten cell stops the machine. After eight samples no cell is
unwritten (10_state.md rule R33). -/
def rxComplete (s : State) : Result :=
  match accByte s.acc with
  | some b => .next { s with rxd := some b, acc := Port.fill none, rxs := .none }.advance
  | none => .fault .unwrittenAcc

/-- SAMPLE micro-step (rules R163, R164). -/
def rxSample (s : State) : Result :=
  if s.rxk = 7 then
    rxComplete ((s.sampleBit.delay s.params.cfg.tBit).delay s.params.cfg.tHalf)
  else .next { s.sampleBit.delay s.params.cfg.tBit with rxk := s.rxk + 1 }

end Sys2Proof.Machine
end

