-- ==== Sys2Proof/Machine/Dispatch.lean ====
section
/-! DEFINITION. Every operation and its meaning, one arm each. -/

namespace Sys2Proof.Machine

def exec (i : Instr) (s : State) : Host.Outcome State Fault Refusal :=
  match i with
  | .pinout p l => Sys2Proof.Machine.execPinout p l s
  | .pinin p => Sys2Proof.Machine.execPinin p s
  | .delay sel => Sys2Proof.Machine.execDelay sel s
  | .lcdcmd1 b => Sys2Proof.Machine.execLcdcmd1 b s
  | .lcdcmd b => Sys2Proof.Machine.execLcdcmd b s
  | .lcdchr b => Sys2Proof.Machine.execLcdchr b s
  | .lcdchrr => Sys2Proof.Machine.execLcdchrr s
  | .lcdstr a => Sys2Proof.Machine.execLcdstr a s
  | .lcdinit => Sys2Proof.Machine.execLcdinit s
  | .rxbyte => Sys2Proof.Machine.execRxbyte s
  | .jmp t => Sys2Proof.Machine.execJmp t s

end Sys2Proof.Machine
end

