-- ==== Sys2Proof/Machine/Launch.lean ====
section
/-! DEFINITION. A launch (00_scope.md rule R12; 70_reset_and_hazards.md rule R242), one fetch and its execution (43_control.md rule R190), and the loading of one word from outside. -/

namespace Sys2Proof.Machine

/-- A launch with given parameters: the power-on state, or a refusal of ill-formed ones (rules R12, R242). -/
def launch (p : Params) : Result :=
  if p.wf then .next (State.powerOn p) else .refused .illFormedConfig

/-- Execute a fetched word, or raise `F_ILLEGAL` (rules R86, R190). -/
def runWord (w : Word16) (s : State) : Result :=
  match decode w with
  | .op i => exec i s
  | .illegal _ => .next (s.raiseFault .illegal w.toNat)

/-- Fetch at `pc` and execute, or raise `F_PC_RANGE` (rule R190). -/
def fetchAndRun (s : State) : Result :=
  match s.fetchWord with
  | some w => runWord w s
  | none => .next (s.raiseFault .pcRange s.pc)

/-- The step of the sequencer from a state with no recorded fault (rule R190). -/
def runSequencer (s : State) : Result :=
  match s.rxs with
  | .hunt => rxHunt s
  | .sample => rxSample s
  | .none => fetchAndRun s

/-- The index at which the next word is placed: `pc`, or 0 where `PROG` cannot reach `pc` (rule R12). -/
def State.loadIndex (s : State) : Nat := if s.pc < 256 then s.pc else 0

/-- The state with a word placed where the sequencer fetches next: a load of `PROG` from outside. A pending
micro-step or a recorded fault, which would keep the fetch from happening, is cleared. -/
def State.loadWord (s : State) (w : Word16) : State :=
  { s with
    pc := s.loadIndex
    rxs := .none
    fault := none
    params := { s.params with prog := placeWord s.params.prog s.loadIndex w } }

end Sys2Proof.Machine
end

