-- ==== Sys2Proof/Machine/Step.lean ====
section
/-! DEFINITION. One step of the machine (43_control.md rule R190). -/

namespace Sys2Proof.Machine

/-- One step: nothing runs with an ill-formed configuration (00_scope.md rule R12), nothing steps from a
recorded fault (60_exceptions.md rule R212); otherwise the sequencer's step (rule R190). -/
def step (s : State) : Host.Outcome State Fault Refusal :=
  if s.params.wf then
    match s.fault with
    | some r => .fault (.stopped r.code r.pc r.word)
    | none => runSequencer s
  else .refused .illFormedConfig

/-- The state with the opcode-table word `w` placed where `step` fetches next (log entry 3). -/
def State.withFetchWord (s : State) (nbits w : Nat) : State :=
  s.loadWord (BitVec.ofNat 16 (w % 2 ^ nbits))

end Sys2Proof.Machine
end

