-- ==== Sys2Proof/Machine/Assembler.lean ====
section
/-! DEFINITION. Assembler lines and their meaning (30_encoding.md rules R88, R89): names of roles, selectors and command bytes, labels, `.`, and the pseudo-instructions. Lines are abstract syntax; their spelling as characters is left out (log entry 12). -/

namespace Sys2Proof

/-- A port-bit operand: a number, or the name of a role (rule R88). -/
inductive PortName where
  | num (p : PortBit)
  | rs
  | e
  | rx
  | d0
  | d1
  | d2
  | d3
deriving DecidableEq, Repr

/-- The name of a byte field of `Cfg` (rules R88, R195). -/
inductive ByteName where
  | cmd8bit
  | cmd4bit
  | cmdFunc
  | cmdDispon
  | cmdEntry
  | cmdLine1
  | cmdLine2
  | cmdClear
  | cmdHome
  | labelAddr
deriving DecidableEq, Repr

/-- A byte operand: a number, or a name (rule R88). -/
inductive ByteOperand where
  | num (b : Byte)
  | name (n : ByteName)
deriving DecidableEq, Repr

/-- A `JMP` operand: a label, a number, or `.` (rule R88). -/
inductive Target where
  | label (l : String)
  | num (b : Byte)
  | here
deriving DecidableEq, Repr

/-- A mnemonic with its operands, or a pseudo-instruction (rules R88, R89). -/
inductive AsmOp where
  | pinout (p : PortName) (l : Bit)
  | pinin (p : PortName)
  | delay (s : Selector)
  | lcdcmd1 (b : ByteOperand)
  | lcdcmd (b : ByteOperand)
  | lcdchr (b : ByteOperand)
  | lcdchrr
  | lcdstr (b : ByteOperand)
  | lcdinit
  | rxbyte
  | jmp (t : Target)
  | halt
  | line1
  | line2
  | clrhome
  | lcdpins
deriving DecidableEq, Repr

/-- One line: `[label:] MNEMONIC [operands] [; comment]` (rule R88). -/
structure AsmLine where
  label : Option String
  op : AsmOp
  comment : Option String
deriving DecidableEq, Repr

/-- The port bit a name stands for. -/
def PortName.resolve (c : Cfg) : PortName → PortBit
  | .num p => p
  | .rs => c.pinRS
  | .e => c.pinE
  | .rx => c.pinRX
  | .d0 => c.pinD0
  | .d1 => c.pinD1
  | .d2 => c.pinD2
  | .d3 => c.pinD3

/-- The byte a name stands for. -/
def ByteName.resolve (c : Cfg) : ByteName → Byte
  | .cmd8bit => c.cmd8bit
  | .cmd4bit => c.cmd4bit
  | .cmdFunc => c.cmdFunc
  | .cmdDispon => c.cmdDispon
  | .cmdEntry => c.cmdEntry
  | .cmdLine1 => c.cmdLine1
  | .cmdLine2 => c.cmdLine2
  | .cmdClear => c.cmdClear
  | .cmdHome => c.cmdHome
  | .labelAddr => c.labelAddr

/-- The byte an operand stands for. -/
def ByteOperand.resolve (c : Cfg) : ByteOperand → Byte
  | .num b => b
  | .name n => n.resolve c

/-- How many words a line takes (rule R89). -/
def AsmOp.size : AsmOp → Nat
  | .clrhome => 2
  | .lcdpins => 6
  | _ => 1

/-- The word index of each label, from index `at0`. -/
def labelsFrom : Nat → List AsmLine → List (String × Nat)
  | _, [] => []
  | at0, l :: ls =>
    match l.label with
    | some n => (n, at0) :: labelsFrom (at0 + l.op.size) ls
    | none => labelsFrom (at0 + l.op.size) ls

/-- The word index of a label, `none` where no line or more than one line carries it. DESIGN CHOICE (log entry 18):
rule R88 does not say what such a label stands for, so the text is refused. -/
def labelIndex (labels : List (String × Nat)) (l : String) : Option Nat :=
  match labels.filter fun e => e.1 == l with
  | [(_, i)] => some i
  | _ => none

/-- A word index as a `JMP` operand, which reaches 0..255 (rule R82). -/
def indexByte (i : Nat) : Option Byte := if i < 256 then some (BitVec.ofNat 8 i) else none

/-- The index a target stands for, on the line at index `i`. A label that no line or more than one line carries, and
an index past 255, have none: DESIGN CHOICE (log entry 18). -/
def Target.resolve (labels : List (String × Nat)) (i : Nat) : Target → Option Byte
  | .label l => (labelIndex labels l).bind indexByte
  | .num b => some b
  | .here => indexByte i

/-- The operations a line at index `i` stands for, `none` where its target has no index (log entry 18). -/
def AsmOp.expand (c : Cfg) (labels : List (String × Nat)) (i : Nat) : AsmOp → Option (List Instr)
  | .pinout p l => some [.pinout (p.resolve c) l]
  | .pinin p => some [.pinin (p.resolve c)]
  | .delay s => some [.delay s]
  | .lcdcmd1 b => some [.lcdcmd1 (b.resolve c)]
  | .lcdcmd b => some [.lcdcmd (b.resolve c)]
  | .lcdchr b => some [.lcdchr (b.resolve c)]
  | .lcdchrr => some [.lcdchrr]
  | .lcdstr b => some [.lcdstr (b.resolve c)]
  | .lcdinit => some [.lcdinit]
  | .rxbyte => some [.rxbyte]
  | .jmp t => (t.resolve labels i).map fun b => [.jmp b]
  | .halt => (indexByte i).map haltAt
  | .line1 => some c.line1
  | .line2 => some c.line2
  | .clrhome => some c.clrhome
  | .lcdpins => some c.lcdpins

/-- The operations of lines from index `i`. -/
def assembleFrom (c : Cfg) (labels : List (String × Nat)) : Nat → List AsmLine → Option (List Instr)
  | _, [] => some []
  | i, l :: ls =>
    match l.op.expand c labels i, assembleFrom c labels (i + l.op.size) ls with
    | some a, some b => some (a ++ b)
    | _, _ => none

/-- Assemble a program. -/
def assemble (c : Cfg) (ls : List AsmLine) : Option (List Instr) :=
  assembleFrom c (labelsFrom 0 ls) 0 ls

/-- A line with no label and no comment. -/
def AsmLine.plain (op : AsmOp) : AsmLine := ⟨none, op, none⟩

/-- `CTRL` as the spec writes it (43_control.md rule R195). -/
def ctrlSource : List AsmLine :=
  [.plain (.pinout .rs false), .plain (.pinout .e false), .plain (.pinout .d0 false),
   .plain (.pinout .d1 false), .plain (.pinout .d2 false), .plain (.pinout .d3 false),
   .plain .lcdinit,
   ⟨some "loop", .lcdcmd (.name .cmdLine1), none⟩,
   .plain (.lcdstr (.name .labelAddr)), .plain (.lcdcmd (.name .cmdLine2)), .plain .rxbyte,
   .plain .lcdchrr, .plain (.delay .pause), .plain (.lcdcmd (.name .cmdClear)),
   .plain (.lcdcmd (.name .cmdHome)), .plain (.jmp (.label "loop"))]

end Sys2Proof
end

