-- ==== Sys2Proof/Safety.lean ====
section
/-! DEFINITION. What is observed of a run and what claims speak of: strobe records, the LCD protocol predicate (41_lcd.md rule R143), the end of a run (43_control.md rule R198), the expected event sequences of the LCD rules, and the invariants of the machine. -/

namespace Sys2Proof.Machine

/-! ### Observation of the trace -/

/-- A strobe record, the `S` event as data (00_scope.md rule R19). -/
structure StrobeRec where
  rs : Bit
  nibble : Nibble
  rise : Nat
  fall : Nat
  edge : Bool
deriving DecidableEq, Repr

/-- The strobe record of an event, if it is an `S` event. -/
def Event.strobe? : Event → Option StrobeRec
  | .strobe rs n tr tf e => some ⟨rs, n, tr, tf, e⟩
  | _ => none

/-- What the LCD controller sees: the `S` events in order (rule R143). -/
def strobesOf (tr : List Event) : List StrobeRec := tr.filterMap Event.strobe?

/-- The tick an event is stamped with (rule R19). An `S` event happens at the fall of E, where rule R132
emits it. DEDUCED (log entry 17). -/
def Event.stamp : Event → Nat
  | .dir _ _ t => t
  | .write _ _ t => t
  | .read _ _ t => t
  | .strobe _ _ _ tf _ => tf

/-- The event is a sample of an input pin. -/
def Event.isRead : Event → Bool
  | .read _ _ _ => true
  | _ => false

/-- The event is a direction write. -/
def Event.isDir : Event → Bool
  | .dir _ _ _ => true
  | _ => false

/-- `LcdProtocolOK` (rule R143): every strobe has a rising edge and its minimum width, and from one strobe's
fall to the next one's rise at least `T_PROC_MIN` passes. -/
structure LcdProtocolOK (c : Cfg) (tr : List Event) : Prop where
  edges : ∀ r ∈ strobesOf tr, r.edge = true
  widths : ∀ r ∈ strobesOf tr, r.rise + c.tStrobeMin ≤ r.fall
  gaps : ∀ (i : Nat) (a b : StrobeRec), (strobesOf tr)[i]? = some a → (strobesOf tr)[i + 1]? = some b →
    a.fall + c.tProcMin ≤ b.rise

/-- The stages of the external controller's wake-up (rule R141). The block holds no such state. -/
inductive ControllerStage where
  | unknownWidth
  | acked8bit (nth : Fin 3)
  | selected4bit
  | linesSet
  | displayOn
  | entrySet
deriving DecidableEq, Repr

/-- The stage each command of `LCDINIT` reaches, in the order of `initSends` (rule R141). -/
def initStages : List ControllerStage :=
  [.acked8bit 0, .acked8bit 1, .acked8bit 2, .selected4bit, .linesSet, .displayOn, .entrySet]

/-! ### The end of a run -/

/-- A run ends: no fault, no receive in progress, and `PROG[pc]` is `JMP pc` (rule R198). -/
def State.ended (s : State) : Bool :=
  decide (s.fault = none) && decide (s.rxs = .none) && decide (s.pc < 256)
    && decide (s.fetchWord = some (encode (.jmp (BitVec.ofNat 8 s.pc))))

/-- A run stops: a fault is recorded (rules R198, R212). -/
def State.stopped (s : State) : Bool := s.fault.isSome

/-- The next state an outcome holds, if any. -/
def nextOf : Result → Option State
  | .next s => some s
  | .fault _ => none
  | .refused _ => none

/-- `k` steps in a row; the first stop ends the run. -/
def runFor : Nat → State → Result
  | 0, s => .next s
  | k + 1, s => andThen (step s) (runFor k)

/-- An outcome with its next state, if any, changed by `f`. -/
def mapNext (f : State → State) : Result → Result
  | .next s => .next (f s)
  | .fault r => .fault r
  | .refused r => .refused r

/-- The same state on another serial line. -/
def State.onLine (s : State) (w : Waveform) : State := { s with params := { s.params with rxLine := w } }

/-- The level of one serial frame at a tick, as rule R93 (30_encoding.md) tabulates it. -/
def frameLevel (e p : Nat) (b : Byte) (t : Nat) : Bit :=
  if t < e then true
  else if t < e + p then false
  else if t < e + 9 * p then b.getLsbD ((t - e) / p - 1)
  else true

/-! ### The event sequences and durations of the LCD rules -/

/-- `U`, the cost of one transfer (rule R142). -/
def Cfg.transferCost (c : Cfg) : Nat := c.tSetup + c.tStrobe + c.tProc

/-- The writes of one nibble at tick `t`: D3, D2, D1, D0 (rules R66, R131). -/
def nibbleEvents (c : Cfg) (n : Nibble) (t : Nat) : List Event :=
  [.write c.pinD3 (n.getLsbD 3) t, .write c.pinD2 (n.getLsbD 2) t, .write c.pinD1 (n.getLsbD 1) t,
   .write c.pinD0 (n.getLsbD 0) t]

/-- One transfer begun at tick `t`: the nibble, the pulse of E, the record (rules R131, R132). -/
def transferEvents (c : Cfg) (rs : Bit) (n : Nibble) (t : Nat) (edge : Bool) : List Event :=
  nibbleEvents c n t ++
    [.write c.pinE true (t + c.tSetup), .write c.pinE false (t + c.tSetup + c.tStrobe),
     .strobe rs n (t + c.tSetup) (t + c.tSetup + c.tStrobe) edge]

/-- A byte sent as two transfers from tick `t`: RS, the high nibble, then one transfer later the low nibble
(rules R65, R133). Only the first strobe can lack a rising edge. -/
def byteEvents (c : Cfg) (rs : Bit) (b : Byte) (t : Nat) (edge : Bool) : List Event :=
  .write c.pinRS rs t :: (transferEvents c rs (highNibble b) t edge ++
    transferEvents c rs (lowNibble b) (t + Cfg.transferCost c) true)

/-- A one-shot command from tick `t` (rule R134). -/
def oneshotEvents (c : Cfg) (b : Byte) (t : Nat) (edge : Bool) : List Event :=
  .write c.pinRS false t :: transferEvents c false (oneshotNibble c b) t edge

/-- The characters of a string, one after the other (rules R139, R142). -/
def stringEvents (c : Cfg) : List Byte → Nat → Bool → List Event
  | [], _, _ => []
  | b :: bs, t, edge => byteEvents c true b t edge ++ stringEvents c bs (t + 2 * Cfg.transferCost c) true

/-- The ten transfers of `LCDINIT` from tick `t`, after the power-up wait (rules R140, R142). -/
def initEvents (c : Cfg) (t : Nat) (edge : Bool) : List Event :=
  oneshotEvents c c.cmd8bit t edge
  ++ oneshotEvents c c.cmd8bit (t + Cfg.transferCost c) true
  ++ oneshotEvents c c.cmd8bit (t + 2 * Cfg.transferCost c) true
  ++ oneshotEvents c c.cmd4bit (t + 3 * Cfg.transferCost c) true
  ++ byteEvents c false c.cmdFunc (t + 4 * Cfg.transferCost c) true
  ++ byteEvents c false c.cmdDispon (t + 6 * Cfg.transferCost c) true
  ++ byteEvents c false c.cmdEntry (t + 8 * Cfg.transferCost c) true

/-- The latch a port bit holds after a transfer of `(rs, n)`: RS, E low, the four data lines; any other port
bit keeps its latch (rules R131 to R134). -/
def busLatch (c : Cfg) (rs : Bit) (n : Nibble) (old : Port (Option Bit)) (p : PortBit) : Option Bit :=
  if p = c.pinRS then some rs
  else if p = c.pinE then some false
  else if p = c.pinD3 then some (n.getLsbD 3)
  else if p = c.pinD2 then some (n.getLsbD 2)
  else if p = c.pinD1 then some (n.getLsbD 1)
  else if p = c.pinD0 then some (n.getLsbD 0)
  else old.read p

/-- From `s`, LCD transfers took `ticks`, emitted `evs` and left the bus at `(rs, n)`; nothing else changed but
perhaps `pc` and `fault`, of which this says nothing. -/
structure LcdSent (s t : State) (rs : Bit) (n : Nibble) (ticks : Nat) (evs : List Event) : Prop where
  now_eq : t.now = s.now + ticks
  trace_eq : t.trace = s.trace ++ evs
  out_eq : ∀ p, t.out.read p = busLatch s.params.cfg rs n s.out p
  dir_eq : t.dir = s.dir
  rxd_eq : t.rxd = s.rxd
  rxs_eq : t.rxs = s.rxs
  rxk_eq : t.rxk = s.rxk
  acc_eq : t.acc = s.acc
  params_eq : t.params = s.params

/-- The LCD pins are all outputs, E's latch holds `e`, and the seven pins are distinct: where an LCD operation
passes its entry check (rules R12, R130). -/
structure LcdReady (s : State) (e : Bit) : Prop where
  outputs : ∀ p ∈ lcdPins s.params.cfg, s.dir.read p = some .output
  eLatch : s.out.read s.params.cfg.pinE = some e
  pins : s.params.cfg.pins.Nodup

/-- ROM holds exactly the non-zero bytes `cs` from address `a`, all below 256. -/
def romHolds (m : Memory) (a : Nat) (cs : List Byte) : Prop :=
  a + cs.length ≤ 256 ∧ ∀ i, (h : i < cs.length) → m.read (a + i) = cs[i] ∧ cs[i] ≠ 0

/-! ### Invariants -/

/-- What holds of every state a run reaches: an output pin has a written latch (rule R130), the receiver's
cells and registers fit its micro-state (rules R32 to R35), `pc` is in 0..256 (rule R35), and a recorded fault
fits its state (rule R212). -/
structure Coherent (s : State) : Prop where
  latched : ∀ p, s.dir.read p = some .output → ∃ v, s.out.read p = some v
  accClear : s.rxs ≠ .sample → ∀ k, s.acc.read k = none
  accSampled : s.rxs = .sample → ∀ k, (s.acc.read k).isSome = decide (k < s.rxk)
  rxdCleared : s.rxs ≠ .none → s.rxd = none
  rxInput : s.rxs ≠ .none → s.dir.read s.params.cfg.pinRX = some .input
  rxIndex : s.rxs ≠ .none → s.params.prog[s.pc]? = some (encode .rxbyte)
  pcBound : s.pc ≤ 256
  faultFits : ∀ r, s.fault = some r → r.pc = s.pc ∧ r.word = s.faultWord r.code ∧ s.rxs = .none

/-- The time stamps of the trace never decrease, and none is later than `now` (rules R36, R70). -/
structure TimeOrdered (s : State) : Prop where
  ordered : s.trace.Pairwise fun a b => a.stamp ≤ b.stamp
  past : ∀ e ∈ s.trace, e.stamp ≤ s.now

/-- Every strobe is held high for exactly `T_STROBE`; from each strobe's fall to any later one's rise at least
`T_PROC + T_SETUP` passes, and `T_PROC` has passed since every strobe (rules R132, R144, R244, R245). -/
structure StrobeTimed (s : State) : Prop where
  width : ∀ r ∈ strobesOf s.trace, r.fall = r.rise + s.params.cfg.tStrobe
  spaced : (strobesOf s.trace).Pairwise fun a b =>
    a.fall + s.params.cfg.tProc + s.params.cfg.tSetup ≤ b.rise
  settled : ∀ r ∈ strobesOf s.trace, r.fall + s.params.cfg.tProc ≤ s.now

/-- Every strobe so far had a rising edge, and E is not high between operations (rules R144, R246). -/
structure EdgesRise (s : State) : Prop where
  rose : ∀ r ∈ strobesOf s.trace, r.edge = true
  eLow : s.out.read s.params.cfg.pinE ≠ some true

/-- The step about to be taken is not a `PINOUT E, 1`. -/
def keepsELow (s : State) : Prop :=
  s.rxs = .none → s.fetchWord ≠ some (encode (.pinout s.params.cfg.pinE true))

end Sys2Proof.Machine
end

