-- ==== Sys2Proof/Certificates/Slice0/Obligations.lean ====
section
/-! DEFINITION. The statements for the provers, one definition each. Rules are cited by number; the file of spec/ that holds a rule is named in OBLIGATIONS.json. -/

open Sys2Proof Sys2Proof.Machine

/-! ### Encoding -/

/-- Decode and encode agree both ways: decoding the word of an operation gives the operation, with every operand
at every value, and a word that decodes is the word of its operation, so no operation has two words (R83, R87). -/
def Obligations.DecodeEncodeAgree : Prop :=
  (∀ i : Instr, decode (encode i) = .op i) ∧ ∀ (w : Word16) (i : Instr), decode w = .op i → encode i = w

/-- A word decodes to an operation exactly when it matches a row of the opcode table and, in the row of
`DELAY`, its selector is in 0..5; the row is that operation's, and no word matches two rows (R87). -/
def Obligations.DecodeFollowsOpcodeTable : Prop :=
  ∀ w : Word16,
    ((∃ i, decode w = .op i) ↔
      ∃ r ∈ opcodeTable, w &&& r.mask = r.value ∧ (r.value = 0x3000 → w.toNat / 256 % 16 ≤ 5)) ∧
    (∀ i, decode w = .op i → w &&& (rowOf i).mask = (rowOf i).value) ∧
    (∀ r ∈ opcodeTable, ∀ r' ∈ opcodeTable, w &&& r.mask = r.value → w &&& r'.mask = r'.value → r = r')

/-- A word is illegal exactly when one of the four conditions of R86 holds; fetching it raises `F_ILLEGAL` with
`pc` at the word and no other state changed; the all-zero word is illegal. -/
def Obligations.IllegalWordsFault : Prop :=
  (∀ w : Word16, (∃ why, decode w = .illegal why) ↔
    ((w.toNat / 4096 = 0 ∨ 12 ≤ w.toNat / 4096) ∨
     ((w.toNat / 4096 = 1 ∨ w.toNat / 4096 = 2) ∧ 8 ≤ w.toNat / 256 % 16) ∨
     (w.toNat / 4096 = 3 ∧ 6 ≤ w.toNat / 256 % 16) ∨
     ((w.toNat / 4096 = 1 ∧ w.toNat % 256 / 2 ≠ 0) ∨
      (w.toNat / 4096 ∈ [2, 3, 7, 9, 10] ∧ w.toNat % 256 ≠ 0) ∨
      (w.toNat / 4096 ∈ [4, 5, 6, 7, 8, 9, 10, 11] ∧ w.toNat / 256 % 16 ≠ 0)))) ∧
  (∀ (s : State) (w : Word16), s.params.wf = true → s.fault = none → s.rxs = .none →
    s.params.prog[s.pc]? = some w → (∃ why, decode w = .illegal why) →
    step s = .next { s with fault := some ⟨.illegal, s.pc, w⟩ }) ∧
  (∃ why, decode 0x0000 = .illegal why)

/-- Words written out from the encoding of each operation decode to it (R84; vector V-D1). -/
def Obligations.SampleWordsDecode : Prop :=
  decode 0x1701 = .op (.pinout 7 true) ∧ decode 0x2200 = .op (.pinin 2) ∧
  decode 0x3500 = .op (.delay .pwrup) ∧ decode 0x4030 = .op (.lcdcmd1 0x30) ∧
  decode 0x5028 = .op (.lcdcmd 0x28) ∧ decode 0x6041 = .op (.lcdchr 0x41) ∧
  decode 0x7000 = .op .lcdchrr ∧ decode 0x80FF = .op (.lcdstr 0xFF) ∧
  decode 0x9000 = .op .lcdinit ∧ decode 0xA000 = .op .rxbyte ∧ decode 0xB0FF = .op (.jmp 0xFF)

/-! ### The step and its faults -/

/-- Where the fetched word decodes to an operation, the step is that operation's, and nothing around it (R190). -/
def Obligations.StepRunsDecodedOperation : Prop :=
  ∀ (s : State) (w : Word16) (i : Instr), s.params.wf = true → s.fault = none → s.rxs = .none →
    s.params.prog[s.pc]? = some w → decode w = .op i → step s = exec i s

/-- A fetch at or past the end of the program raises `F_PC_RANGE` with the word 0x0000 and changes nothing
else (R190, R212). -/
def Obligations.FetchPastProgramFaults : Prop :=
  ∀ s : State, s.params.wf = true → s.fault = none → s.rxs = .none → s.params.prog.length ≤ s.pc →
    step s = .next { s with fault := some ⟨.pcRange, s.pc, 0⟩ }

/-- No step is taken from a recorded fault, however long one runs: the run stops with that record (R42, R212). The
outcome `fault` for "no step" is the model's choice (log entry 5). -/
def Obligations.RecordedFaultIsTerminal : Prop :=
  ∀ (s : State) (r : FaultRecord) (n : Nat), s.params.wf = true → s.fault = some r →
    runFor (n + 1) s = .fault (.stopped r.code r.pc r.word)

/-- A step that raises a fault records the index and the word of the faulting operation and leaves `pc` there.
But for `F_ROM_RANGE` it changes nothing else; `F_ROM_RANGE` keeps the events and the time already spent (R212). -/
def Obligations.FaultsArePrecise : Prop :=
  ∀ (s t : State) (r : FaultRecord), step s = .next t → t.fault = some r →
    r.pc = s.pc ∧ t.pc = s.pc ∧
    r.word = (if r.code = .pcRange then 0 else s.params.prog[s.pc]?.getD 0) ∧
    (r.code ≠ .romRange → t = { s with fault := some r }) ∧
    (r.code = .romRange → s.trace <+: t.trace ∧ s.now ≤ t.now ∧ t.dir = s.dir ∧ t.rxd = s.rxd ∧
      t.rxs = s.rxs ∧ t.rxk = s.rxk ∧ t.acc = s.acc ∧ t.params = s.params)

/-- Each fault code comes from the operations the table of R211 names, for the cause it names there, after the checks
that R213 puts before it, and never from a receiver micro-step, `PINOUT`, `PININ`, `DELAY` or `JMP`. -/
def Obligations.FaultsComeFromNamedOperations : Prop :=
  ∀ (s t : State) (r : FaultRecord), step s = .next t → t.fault = some r →
    s.rxs = .none ∧
    match r.code with
    | .pcRange => s.params.prog.length ≤ s.pc
    | .illegal => ∃ w why, s.params.prog[s.pc]? = some w ∧ decode w = .illegal why
    | .dirOut => ∃ w i, s.params.prog[s.pc]? = some w ∧ decode w = .op i ∧
        ((i = .lcdchrr ∧ s.rxd ≠ none) ∨ i = .lcdinit ∨
          ∃ b, i = .lcdcmd1 b ∨ i = .lcdcmd b ∨ i = .lcdchr b ∨ i = .lcdstr b) ∧
        ∃ p ∈ lcdPins s.params.cfg, s.dir.read p ≠ some .output
    | .dirIn => ∃ w, s.params.prog[s.pc]? = some w ∧ decode w = .op .rxbyte ∧
        s.dir.read s.params.cfg.pinRX ≠ some .input
    | .unwritten => ∃ w, s.params.prog[s.pc]? = some w ∧ decode w = .op .lcdchrr ∧ s.rxd = none
    | .romRange => ∃ w a, s.params.prog[s.pc]? = some w ∧ decode w = .op (.lcdstr a) ∧
        (∀ p ∈ lcdPins s.params.cfg, s.dir.read p = some .output) ∧
        ∀ x, a.toNat ≤ x → x < 256 → s.params.rom.read x ≠ 0

/-- The entry checks of the LCD operations, in their order: `LCDCHRR` with `rxd` unwritten raises `F_UNWRITTEN`
whatever the pins are; otherwise each of the six raises `F_DIR_OUT` when one of RS, E, D0..D3 is no output.
Nothing but the fault record changes (R130, R138, R213). -/
def Obligations.LcdEntryChecks : Prop :=
  ∀ s : State,
    (s.rxd = none →
      exec .lcdchrr s = .next { s with fault := some ⟨.unwritten, s.pc, s.params.prog[s.pc]?.getD 0⟩ }) ∧
    ((∃ p ∈ lcdPins s.params.cfg, s.dir.read p ≠ some .output) →
      ∀ i, (i = .lcdinit ∨ (i = .lcdchrr ∧ s.rxd ≠ none) ∨
          ∃ b, i = .lcdcmd1 b ∨ i = .lcdcmd b ∨ i = .lcdchr b ∨ i = .lcdstr b) →
        exec i s = .next { s with fault := some ⟨.dirOut, s.pc, s.params.prog[s.pc]?.getD 0⟩ })

/-- The program counter after a step. A faulting step leaves it. `JMP` sets it, `RXBYTE` keeps it until the sample
of bit 7, which moves it on by one, and every other operation moves it on by one (R192). -/
def Obligations.PcUpdate : Prop :=
  ∀ s t : State, step s = .next t →
    (t.fault ≠ none → t.pc = s.pc) ∧
    (s.rxs = .hunt → t.pc = s.pc) ∧
    (s.rxs = .sample → t.pc = if s.rxk = 7 then s.pc + 1 else s.pc) ∧
    (s.rxs = .none → t.fault = none → ∀ w i, s.params.prog[s.pc]? = some w → decode w = .op i →
      t.pc = match i with
        | .jmp a => a.toNat
        | .rxbyte => s.pc
        | _ => s.pc + 1)

/-! ### GPIO, delay and jump -/

/-- `PINOUT p, l` makes the port bit an output at level `l`, direction event first, in zero ticks, and moves
`pc` on by one; every other port bit and every other field is unchanged (R115). -/
def Obligations.PinoutResult : Prop :=
  ∀ (s : State) (p : PortBit) (l : Bit), ∃ t, exec (.pinout p l) s = .next t ∧
    (∀ q, t.dir.read q = if q = p then some .output else s.dir.read q) ∧
    (∀ q, t.out.read q = if q = p then some l else s.out.read q) ∧
    t.trace = s.trace ++ [.dir p .output s.now, .write p l s.now] ∧ t.pc = s.pc + 1 ∧ t.now = s.now ∧
    t.rxd = s.rxd ∧ t.rxs = s.rxs ∧ t.rxk = s.rxk ∧ t.acc = s.acc ∧ t.fault = s.fault ∧ t.params = s.params

/-- `PININ p` makes the port bit an input in zero ticks and moves `pc` on by one; every latch, that of `p` too, every other direction and
every other field is unchanged (R116). -/
def Obligations.PininResult : Prop :=
  ∀ (s : State) (p : PortBit), ∃ t, exec (.pinin p) s = .next t ∧
    (∀ q, t.dir.read q = if q = p then some .input else s.dir.read q) ∧ t.out = s.out ∧
    t.trace = s.trace ++ [.dir p .input s.now] ∧ t.pc = s.pc + 1 ∧ t.now = s.now ∧
    t.rxd = s.rxd ∧ t.rxs = s.rxs ∧ t.rxk = s.rxk ∧ t.acc = s.acc ∧ t.fault = s.fault ∧ t.params = s.params

/-- `DELAY s` lets exactly the named duration pass and changes nothing but `now` and `pc` (R85, R113, R117). -/
def Obligations.DelayResult : Prop :=
  ∀ (s : State) (sel : Selector), exec (.delay sel) s = .next { s with
    pc := s.pc + 1
    now := s.now + match sel with
      | .half => s.params.cfg.tHalf
      | .bit => s.params.cfg.tBit
      | .proc => s.params.cfg.tProc
      | .strobe => s.params.cfg.tStrobe
      | .pause => s.params.cfg.tPause
      | .pwrup => s.params.cfg.tPwrup }

/-- `JMP t` sets `pc` to its target in zero ticks and changes nothing else; a target past the program faults at
the next fetch, not at the jump (R193). -/
def Obligations.JmpResult : Prop :=
  ∀ (s : State) (a : Byte), exec (.jmp a) s = .next { s with pc := a.toNat } ∧
    (s.params.wf = true → s.fault = none → s.rxs = .none → s.params.prog.length ≤ a.toNat →
      step { s with pc := a.toNat } = .next { s with pc := a.toNat, fault := some ⟨.pcRange, a.toNat, 0⟩ })

/-- A halted program loops in place: from an ended state the step is the self-jump, with no time passing and
nothing changed (R193, R198). -/
def Obligations.HaltLoopsInPlace : Prop :=
  ∀ s : State, s.params.wf = true → s.ended = true → step s = .next s

/-! ### The LCD transmitter -/

/-- `LCDCMD1 b` sends one transfer, the half of `b` that `ONESHOT_HALF` names, in command mode (R134, R135). -/
def Obligations.Lcdcmd1SendsOneTransfer : Prop :=
  ∀ (s : State) (e : Bit) (b : Byte), LcdReady s e →
    ∃ t, exec (.lcdcmd1 b) s = .next t ∧ t.pc = s.pc + 1 ∧ t.fault = s.fault ∧
      LcdSent s t false (if s.params.cfg.oneshotHalf = .high then b.extractLsb' 4 4 else b.extractLsb' 0 4)
        (Cfg.transferCost s.params.cfg) (oneshotEvents s.params.cfg b s.now (!e))

/-- `LCDCMD b`, `LCDCHR b` and `LCDCHRR` (with the byte in `rxd`) send their byte as two transfers, high nibble
first, in command mode for the first and data mode for the others, whatever the byte is (R92, R133, R136 to R138). -/
def Obligations.LcdByteOperationsSendTwoTransfers : Prop :=
  ∀ (s : State) (e : Bit) (b : Byte), LcdReady s e →
    ∀ (i : Instr) (rs : Bit),
      ((i = .lcdcmd b ∧ rs = false) ∨ (i = .lcdchr b ∧ rs = true) ∨
        (i = .lcdchrr ∧ s.rxd = some b ∧ rs = true)) →
      ∃ t, exec i s = .next t ∧ t.pc = s.pc + 1 ∧ t.fault = s.fault ∧
        LcdSent s t rs (b.extractLsb' 0 4) (2 * Cfg.transferCost s.params.cfg)
          (byteEvents s.params.cfg rs b s.now (!e))

/-- `LCDSTR a` sends the characters from `a` up to the zero byte, each as two data transfers, and not the zero
byte; an empty string changes only `pc` (R139, R142). -/
def Obligations.LcdstrSendsString : Prop :=
  ∀ (s : State) (e : Bit) (a : Byte) (cs : List Byte), LcdReady s e →
    romHolds s.params.rom a.toNat cs → a.toNat + cs.length < 256 →
    s.params.rom.read (a.toNat + cs.length) = 0 →
    ∃ t, exec (.lcdstr a) s = .next t ∧ t.pc = s.pc + 1 ∧ t.fault = s.fault ∧
      match cs.getLast? with
      | none => t = { s with pc := s.pc + 1 }
      | some c => LcdSent s t true (c.extractLsb' 0 4) (2 * Cfg.transferCost s.params.cfg * cs.length)
          (stringEvents s.params.cfg cs s.now (!e))

/-- A string with no zero byte up to address 0xFF is sent to the end and then raises `F_ROM_RANGE`: the events and
the time stay, `pc` stays at the `LCDSTR` (R139, R212). -/
def Obligations.LcdstrRunsOffRom : Prop :=
  ∀ (s : State) (e : Bit) (a : Byte) (cs : List Byte) (c : Byte), LcdReady s e →
    romHolds s.params.rom a.toNat cs → a.toNat + cs.length = 256 → cs.getLast? = some c →
    ∃ t, exec (.lcdstr a) s = .next t ∧ t.pc = s.pc ∧
      t.fault = some ⟨.romRange, s.pc, s.params.prog[s.pc]?.getD 0⟩ ∧
      LcdSent s t true (c.extractLsb' 0 4) (2 * Cfg.transferCost s.params.cfg * cs.length)
        (stringEvents s.params.cfg cs s.now (!e))

/-- `LCDINIT` waits `T_PWRUP` and sends its ten transfers in the fixed order, each a processing delay after the
one before (R140, R142). -/
def Obligations.LcdinitSendsHandshake : Prop :=
  ∀ (s : State) (e : Bit), LcdReady s e →
    ∃ t, exec .lcdinit s = .next t ∧ t.pc = s.pc + 1 ∧ t.fault = s.fault ∧
      LcdSent s t false (s.params.cfg.cmdEntry.extractLsb' 0 4)
        (s.params.cfg.tPwrup + 10 * Cfg.transferCost s.params.cfg)
        (initEvents s.params.cfg (s.now + s.params.cfg.tPwrup) (!e))

/-- Whatever an LCD operation answers next, it wrote no direction, no receiver register and no parameter, sampled
nothing, and left every latch but those of RS, E and D0..D3 alone (R118, R134, R145). -/
def Obligations.LcdOperationsFrame : Prop :=
  ∀ (s t : State) (i : Instr),
    (i = .lcdchrr ∨ i = .lcdinit ∨ ∃ b, i = .lcdcmd1 b ∨ i = .lcdcmd b ∨ i = .lcdchr b ∨ i = .lcdstr b) →
    exec i s = .next t →
    t.dir = s.dir ∧ t.rxd = s.rxd ∧ t.rxs = s.rxs ∧ t.rxk = s.rxk ∧ t.acc = s.acc ∧ t.params = s.params ∧
    (∀ p, p ∉ lcdPins s.params.cfg → t.out.read p = s.out.read p) ∧
    ∃ es, t.trace = s.trace ++ es ∧ ∀ ev ∈ es, ev.isRead = false ∧ ev.isDir = false

/-- Running `LCDCMD b` again, right after, sends the same transfers, shifted by the difference (R147). -/
def Obligations.RepeatedCommandSendsSameTransfers : Prop :=
  ∀ (s t u : State) (b : Byte), LcdReady s false → exec (.lcdcmd b) s = .next t → exec (.lcdcmd b) t = .next u →
    ∃ r1 r2, strobesOf t.trace = strobesOf s.trace ++ r1 ∧ strobesOf u.trace = strobesOf t.trace ++ r2 ∧
      r1.length = 2 ∧
      r2 = r1.map fun r => { r with
        rise := r.rise + 2 * Cfg.transferCost s.params.cfg
        fall := r.fall + 2 * Cfg.transferCost s.params.cfg }

/-! ### The receiver -/

/-- The entry of `RXBYTE`: with RX an input it discards `rxd` and the accumulator and starts the hunt, in zero
ticks, with no event and `pc` unchanged; otherwise it raises `F_DIR_IN` and changes nothing else (R161). -/
def Obligations.RxbyteEntry : Prop :=
  ∀ s : State,
    (s.dir.read s.params.cfg.pinRX = some .input →
      ∃ t, exec .rxbyte s = .next t ∧ (∀ k, t.acc.read k = none) ∧
        t = { s with rxd := none, acc := t.acc, rxs := .hunt }) ∧
    (s.dir.read s.params.cfg.pinRX ≠ some .input →
      exec .rxbyte s = .next { s with fault := some ⟨.dirIn, s.pc, s.params.prog[s.pc]?.getD 0⟩ })

/-- A poll of the hunt: one sample of RX; on a 1 the hunt goes on `T_POLL` later, on a 0 sampling starts
`T_HALF + T_BIT` later with bit 0 (R162). -/
def Obligations.HuntPoll : Prop :=
  ∀ s : State, s.params.wf = true → s.fault = none → s.rxs = .hunt →
    step s = .next (if s.params.rxLine.level s.now = true then
      { s with now := s.now + s.params.cfg.tPoll
               trace := s.trace ++ [.read s.params.cfg.pinRX true s.now] }
    else
      { s with now := s.now + s.params.cfg.tHalf + s.params.cfg.tBit
               trace := s.trace ++ [.read s.params.cfg.pinRX false s.now]
               rxk := 0
               rxs := .sample })

/-- A sample of data bit `k < 7` goes to cell `k` of the accumulator and takes `T_BIT`; the next bit is `k + 1`;
no other cell and no other field changes (R163). -/
def Obligations.SampleDataBit : Prop :=
  ∀ s : State, s.params.wf = true → s.fault = none → s.rxs = .sample → s.rxk.val < 7 →
    ∃ t, step s = .next t ∧
      (∀ k, t.acc.read k = if k = s.rxk then some (s.params.rxLine.level s.now) else s.acc.read k) ∧
      t.rxk.val = s.rxk.val + 1 ∧
      t = { s with
        now := s.now + s.params.cfg.tBit
        trace := s.trace ++ [.read s.params.cfg.pinRX (s.params.rxLine.level s.now) s.now]
        acc := t.acc
        rxk := t.rxk }

/-- The sample of data bit 7 completes the receive: `rxd` is the byte whose bit `k` is accumulator cell `k`, the
accumulator is unwritten again, and `pc` moves on after `T_BIT + T_HALF` (R164). -/
def Obligations.LastSampleCompletes : Prop :=
  ∀ (s : State) (b : Byte), s.params.wf = true → s.fault = none → s.rxs = .sample → s.rxk = 7 →
    (∀ k : Fin 8, k ≠ 7 → s.acc.read k = some (b.getLsbD k.val)) →
    s.params.rxLine.level s.now = b.getLsbD 7 →
    ∃ t, step s = .next t ∧ (∀ k, t.acc.read k = none) ∧
      t = { s with
        pc := s.pc + 1
        now := s.now + s.params.cfg.tBit + s.params.cfg.tHalf
        trace := s.trace ++ [.read s.params.cfg.pinRX (b.getLsbD 7) s.now]
        rxd := some b
        rxs := .none
        acc := t.acc }

/-- While the line reads 1 at every poll the receiver stays in the hunt, for any number of steps; every step adds
one sample and `T_POLL` ticks, and nothing else changes (R165). -/
def Obligations.IdleLineHuntsForEver : Prop :=
  ∀ (n : Nat) (s : State), s.params.wf = true → s.fault = none → s.rxs = .hunt →
    (∀ j < n, s.params.rxLine.level (s.now + j * s.params.cfg.tPoll) = true) →
    runFor n s = .next { s with
      now := s.now + n * s.params.cfg.tPoll
      trace := s.trace ++ (List.range n).map fun j =>
        .read s.params.cfg.pinRX true (s.now + j * s.params.cfg.tPoll) }

/-- A whole `RXBYTE` fetched at a tick `t0`: poll `j` is at `t0 + j*T_POLL`; with the first 0 at poll `n`, at tick
`td`, bit `k` of the byte is the level at `td + T_HALF + (k+1)*T_BIT`, and the receive completes at
`td + 2*T_HALF + 9*T_BIT`, after the entry step, `n + 1` polls and 8 samples (R161 to R166). -/
def Obligations.ReceiveSamplesTheLine : Prop :=
  ∀ (s : State) (n td : Nat), s.params.wf = true → s.fault = none → s.rxs = .none →
    s.params.prog[s.pc]? = some (encode .rxbyte) → s.dir.read s.params.cfg.pinRX = some .input →
    (∀ j < n, s.params.rxLine.level (s.now + j * s.params.cfg.tPoll) = true) →
    td = s.now + n * s.params.cfg.tPoll → s.params.rxLine.level td = false →
    ∃ t b, runFor (n + 10) s = .next t ∧ t.rxd = some b ∧
      (∀ k < 8, b.getLsbD k =
        s.params.rxLine.level (td + s.params.cfg.tHalf + (k + 1) * s.params.cfg.tBit)) ∧
      t.now = td + 2 * s.params.cfg.tHalf + 9 * s.params.cfg.tBit ∧ t.pc = s.pc + 1 ∧ t.rxs = .none ∧
      (∀ k, t.acc.read k = none) ∧ t.fault = none ∧ t.out = s.out ∧ t.dir = s.dir ∧ t.params = s.params ∧
      t.trace = s.trace ++
        ((List.range n).map fun j => .read s.params.cfg.pinRX true (s.now + j * s.params.cfg.tPoll)) ++
        .read s.params.cfg.pinRX false td :: (List.range 8).map fun k =>
          .read s.params.cfg.pinRX
            (s.params.rxLine.level (td + s.params.cfg.tHalf + (k + 1) * s.params.cfg.tBit))
            (td + s.params.cfg.tHalf + (k + 1) * s.params.cfg.tBit)

/-- With the hunt begun at or before a frame's edge and its first poll from the edge on, `n` polls later, inside
the start cell at latency `d`, every byte is received correctly exactly when every sample falls in its own data
cell (R167, R168). -/
def Obligations.FrameReceivedIffSamplesInCells : Prop :=
  ∀ (s : State) (e p d n : Nat), s.params.wf = true → s.fault = none → s.rxs = .hunt →
    s.now + n * s.params.cfg.tPoll = e + d → (∀ j < n, s.now + j * s.params.cfg.tPoll < e) → d < p →
    ((∀ b : Byte, ∃ t, runFor (n + 9) (s.onLine (Waveform.frame e p b)) = .next t ∧ t.rxd = some b) ↔
     ∀ k < 8, (k + 1) * p ≤ d + s.params.cfg.tHalf + (k + 1) * s.params.cfg.tBit ∧
       d + s.params.cfg.tHalf + (k + 1) * s.params.cfg.tBit < (k + 2) * p)

/-- The waveform of frames that do not overlap is 1 but where a frame's own level is 0, and a frame's level is the
table of R93: idle 1, start 0, the data bits least significant first, stop 1. -/
def Obligations.FrameWaveform : Prop :=
  ∀ (fs : List SerialFrame), fs.Pairwise (fun f g => f.edge + 10 * f.period ≤ g.edge) →
    ∀ t, (Waveform.ofFrames fs).level t = fs.all fun f => frameLevel f.edge f.period f.byte t

/-- A step that starts outside a receive samples no pin; a micro-step samples RX exactly once, at its first tick
(R112, R170). -/
def Obligations.OnlyMicroStepsSample : Prop :=
  ∀ s t : State, step s = .next t →
    (s.rxs = .none → ∃ es, t.trace = s.trace ++ es ∧ ∀ ev ∈ es, ev.isRead = false) ∧
    (s.rxs ≠ .none →
      t.trace = s.trace ++ [.read s.params.cfg.pinRX (s.params.rxLine.level s.now) s.now])

/-- Outside the micro-steps of `RXBYTE` nothing depends on the serial line: `exec`, which for `RXBYTE` is its entry step
alone (R161), answers the same on any other line, but for the line itself. What arrives outside the micro-steps
leaves no trace (R170, R247). -/
def Obligations.OperationsIgnoreTheLine : Prop :=
  ∀ (s : State) (w : Waveform) (i : Instr),
    exec i (s.onLine w) = mapNext (fun t => t.onLine w) (exec i s)

/-- The receiver's registers are written only by `RXBYTE`: a step outside a receive that runs any other operation,
or faults, leaves `rxd`, `rxs`, `rxk` and the accumulator alone; within a receive `rxd` changes only at the sample
of bit 7 (R32 to R34). -/
def Obligations.ReceiverRegistersWritten : Prop :=
  ∀ s t : State, step s = .next t →
    (s.rxs = .none → s.params.prog[s.pc]? ≠ some (encode .rxbyte) →
      t.rxd = s.rxd ∧ t.rxs = s.rxs ∧ t.rxk = s.rxk ∧ t.acc = s.acc) ∧
    (s.rxs ≠ .none → t.rxd ≠ s.rxd → s.rxs = .sample ∧ s.rxk = 7)

/-- A direction cell changes only by a `PINOUT` or `PININ` of its own port bit (R41, R111). -/
def Obligations.DirectionWritten : Prop :=
  ∀ (s t : State) (p : PortBit), step s = .next t → t.dir.read p ≠ s.dir.read p →
    s.rxs = .none ∧ ∃ w, s.params.prog[s.pc]? = some w ∧
      ((∃ l, decode w = .op (.pinout p l) ∧ t.dir.read p = some .output) ∨
       (decode w = .op (.pinin p) ∧ t.dir.read p = some .input))

/-! ### Time, trace, parameters -/

/-- No step writes a parameter of the run: `Cfg`, `PROG`, `ROM` and the waveform stay (R47). -/
def Obligations.ParametersNeverChange : Prop :=
  ∀ s t : State, step s = .next t → t.params = s.params

/-- The trace is empty at power-on, an event is added at its end, and no step removes or changes one (R43). -/
def Obligations.TraceOnlyGrows : Prop :=
  (∀ p, (State.powerOn p).trace = []) ∧
  (∀ (s : State) (ev : Event), (s.emit ev).trace = s.trace ++ [ev]) ∧
  (∀ s t : State, step s = .next t → s.trace <+: t.trace)

/-- Time is 0 at power-on and never goes back. It stands still in `PINOUT`, `PININ`, `JMP` and the entry of `RXBYTE`
(R36, R114, R252). -/
def Obligations.TimeNeverGoesBack : Prop :=
  (∀ p, (State.powerOn p).now = 0) ∧
  (∀ s t : State, step s = .next t → s.now ≤ t.now) ∧
  (∀ (s t : State) (i : Instr),
    (i = .rxbyte ∨ ∃ p l a, i = .pinout p l ∨ i = .pinin p ∨ i = .jmp a) → exec i s = .next t →
    t.now = s.now)

/-- The time stamps of the trace never decrease and never pass `now`: every step keeps it (R36, R70). The stamp of a
strobe record, the fall of E, is the model's choice (log entry 17). -/
def Obligations.StepKeepsTimeOrder : Prop :=
  ∀ s t : State, TimeOrdered s → step s = .next t → TimeOrdered t

/-- Every strobe is exactly `T_STROBE` wide and `T_PROC + T_SETUP` passes before the next: every step keeps it, for
every program (R132, R144, R244, R245). -/
def Obligations.StepKeepsStrobeTiming : Prop :=
  ∀ s t : State, StrobeTimed s → step s = .next t → StrobeTimed t

/-- Every strobe has a rising edge and E is low between operations: every step keeps it that runs no `PINOUT E, 1`
(R144, R246). -/
def Obligations.StepKeepsEdgesRising : Prop :=
  ∀ s t : State, EdgesRise s → keepsELow s → step s = .next t → EdgesRise t

/-- The trace of a run from power-on: for any program, with `T_STROBE` at its minimum or above every strobe is wide
enough, and with `T_PROC` at its minimum or above every gap is long enough; for a program with no `PINOUT E, 1`
every strobe has its rising edge. Under both minima and with no `PINOUT E, 1` in the program the trace satisfies
`LcdProtocolOK` (R143, R144). -/
def Obligations.RunsFollowLcdProtocol : Prop :=
  ∀ (p : Params) (n : Nat) (t : State), runFor n (State.powerOn p) = .next t →
    (p.cfg.tStrobeMin ≤ p.cfg.tStrobe → ∀ r ∈ strobesOf t.trace, r.rise + p.cfg.tStrobeMin ≤ r.fall) ∧
    (p.cfg.tProcMin ≤ p.cfg.tProc → ∀ (i : Nat) (a b : StrobeRec), (strobesOf t.trace)[i]? = some a →
      (strobesOf t.trace)[i + 1]? = some b → a.fall + p.cfg.tProcMin ≤ b.rise) ∧
    (encode (.pinout p.cfg.pinE true) ∉ p.prog → ∀ r ∈ strobesOf t.trace, r.edge = true) ∧
    (p.cfg.tStrobeMin ≤ p.cfg.tStrobe → p.cfg.tProcMin ≤ p.cfg.tProc →
      encode (.pinout p.cfg.pinE true) ∉ p.prog → LcdProtocolOK p.cfg t.trace)

/-! ### The reachable states -/

/-- Every step keeps the machine coherent: outputs have written latches, the receiver's registers fit its
micro-state, `pc` stays in 0..256, a recorded fault fits its state (R32 to R35, R130, R212). -/
def Obligations.StepKeepsCoherence : Prop :=
  ∀ s t : State, Coherent s → step s = .next t → Coherent t

/-- The power-on state is coherent, ordered in time and keeps the strobe rules, for all parameters (R45). -/
def Obligations.PowerOnInvariants : Prop :=
  (∀ p, Coherent (State.powerOn p) ∧ TimeOrdered (State.powerOn p) ∧ StrobeTimed (State.powerOn p) ∧
    EdgesRise (State.powerOn p)) ∧
  Coherent State.reset

/-- A coherent state with a well-formed configuration and no recorded fault always has a next state: no rule reads
an unwritten cell, and every operation completes or records its fault (R18, R33, R130, R190). -/
def Obligations.CoherentStatesStep : Prop :=
  ∀ s : State, Coherent s → s.params.wf = true → s.fault = none → ∃ t, step s = .next t

/-! ### Memory, reset and launch -/

/-- `MemRead(a, 1)` gives the byte at every address below 256 and fails from 256 on; no step writes ROM (R61). -/
def Obligations.RomReads : Prop :=
  (∀ (m : Memory) (a : Nat), (a < 256 → memRead m a = some (m.read a)) ∧ (256 ≤ a → memRead m a = none)) ∧
  (∀ (s : State), sendString 0 s =
    .next { s with fault := some ⟨.romRange, s.pc, s.params.prog[s.pc]?.getD 0⟩ }) ∧
  (∀ s t : State, step s = .next t → t.params.rom = s.params.rom)

/-- A byte placed in a canonical ROM at an address below 256 reads back, every other address reads as before,
and placing back what the byte was gives the ROM back (the model's load of ROM, log entry 8). -/
def Obligations.PlacedByteReadsBack : Prop :=
  ∀ (m : Memory) (a : Nat) (b : Byte), m.wf = true → a < 256 →
    (∀ a', (m.store a b).read a' = if a' = a then b else m.read a') ∧
    (m.store a b).store a (m.read a) = m

/-- The label ROM holds the bytes of "Char from Serial" and a zero byte from the label address on, as far as ROM
reaches, with 0x00 everywhere else (R62; the model's choice for the other bytes follows R14, log entry 8). -/
def Obligations.LabelRomHoldsLabel : Prop :=
  ∀ a : Byte,
    (∀ i, (h : i < 17) → a.toNat + i < 256 → (labelRom a).read (a.toNat + i) =
      [0x43, 0x68, 0x61, 0x72, 0x20, 0x66, 0x72, 0x6F, 0x6D, 0x20, 0x53, 0x65, 0x72, 0x69, 0x61, 0x6C, 0x00][i]'h) ∧
    (∀ x, (x < a.toNat ∨ a.toNat + 17 ≤ x) → (labelRom a).read x = 0)

/-- The power-on state, field by field (R45): `pc`, `now` 0; every latch unwritten; RX an input and every other
direction unwritten; `rxd` and the accumulator unwritten; NONE, 0; empty trace; no fault. -/
def Obligations.PowerOnState : Prop :=
  ∀ p : Params, (State.powerOn p).pc = 0 ∧ (State.powerOn p).now = 0 ∧
    (∀ q, (State.powerOn p).out.read q = none) ∧
    (∀ q, (State.powerOn p).dir.read q = if q = p.cfg.pinRX then some .input else none) ∧
    (State.powerOn p).rxd = none ∧ (State.powerOn p).rxs = .none ∧ (State.powerOn p).rxk = 0 ∧
    (∀ k, (State.powerOn p).acc.read k = none) ∧ (State.powerOn p).trace = [] ∧
    (State.powerOn p).fault = none ∧ (State.powerOn p).params = p

/-- A launch gives the power-on state exactly when the configuration is well formed by R12, and is refused
otherwise; the timing minima play no part. That a step refuses it too is the model's choice (log entry 7). -/
def Obligations.LaunchTakesWellFormedOnly : Prop :=
  ∀ p : Params,
    (1 ≤ p.cfg.tBit ∧ 1 ≤ p.cfg.tPoll ∧
      [p.cfg.pinRS, p.cfg.pinE, p.cfg.pinRX, p.cfg.pinD0, p.cfg.pinD1, p.cfg.pinD2, p.cfg.pinD3].Nodup ∧
      1 ≤ p.prog.length ∧ p.prog.length ≤ 256 → launch p = .next (State.powerOn p)) ∧
    (¬ (1 ≤ p.cfg.tBit ∧ 1 ≤ p.cfg.tPoll ∧
      [p.cfg.pinRS, p.cfg.pinE, p.cfg.pinRX, p.cfg.pinD0, p.cfg.pinD1, p.cfg.pinD2, p.cfg.pinD3].Nodup ∧
      1 ≤ p.prog.length ∧ p.prog.length ≤ 256) →
        launch p = .refused .illFormedConfig ∧
        ∀ s : State, s.params = p → step s = .refused .illFormedConfig)

/-- A word loaded where the machine fetches next is run by the very next step. The load changes only `pc` (where the
program cannot reach it), a pending micro-step, a recorded fault and the program: that one word, and words 0x0000
that lengthen a shorter program up to it (the model's own load, log entry 3). -/
def Obligations.LoadedWordRunsNext : Prop :=
  ∀ (s t : State) (w : Nat) (i : Instr), s.params.wf = true → decode (BitVec.ofNat 16 w) = .op i →
    t = s.withFetchWord 16 w →
    step t = exec i t ∧
    t = { s with
      pc := if s.pc < 256 then s.pc else 0
      rxs := .none
      fault := none
      params := { s.params with prog := t.params.prog } } ∧
    t.params.prog.length = max s.params.prog.length (t.pc + 1) ∧
    t.params.prog[t.pc]? = some (BitVec.ofNat 16 w) ∧
    (∀ j < s.params.prog.length, j ≠ t.pc → t.params.prog[j]? = s.params.prog[j]?) ∧
    ∀ j, s.params.prog.length ≤ j → j < t.pc → t.params.prog[j]? = some 0
end

