-- ==== Sys2Proof/Laws/Decode.lean ====
section
/-! SUPPORT. The fields of an operation word as numbers (30_encoding.md rule R81), and a word put together from its fields. -/

namespace Sys2Proof

theorem opField_toNat (w : Word16) : (opField w).toNat = w.toNat / 4096 := by
  have := w.isLt
  simp [opField, BitVec.extractLsb'_toNat, Nat.shiftRight_eq_div_pow]
  omega

theorem aField_toNat (w : Word16) : (aField w).toNat = w.toNat / 256 % 16 := by
  simp [aField, BitVec.extractLsb'_toNat, Nat.shiftRight_eq_div_pow]

theorem immField_toNat (w : Word16) : (immField w).toNat = w.toNat % 256 := by
  simp [immField, BitVec.extractLsb'_toNat]

theorem wordOf_toNat (o a : BitVec 4) (m : Byte) :
    (wordOf o a m).toNat = o.toNat * 4096 + a.toNat * 256 + m.toNat := by
  have h1 := a.isLt
  have h2 := m.isLt
  simp only [wordOf, BitVec.toNat_append]
  rw [← Nat.shiftLeft_add_eq_or_of_lt h1, ← Nat.shiftLeft_add_eq_or_of_lt h2]
  simp [Nat.shiftLeft_eq]
  omega

/-- A word is put together from its three fields. -/
theorem wordOf_fields (w : Word16) : wordOf (opField w) (aField w) (immField w) = w := by
  apply BitVec.eq_of_toNat_eq
  rw [wordOf_toNat, opField_toNat, aField_toNat, immField_toNat]
  omega

@[simp] theorem opField_wordOf (o a : BitVec 4) (m : Byte) : opField (wordOf o a m) = o := by
  have h1 := a.isLt
  have h2 := m.isLt
  apply BitVec.eq_of_toNat_eq
  rw [opField_toNat, wordOf_toNat]
  omega

@[simp] theorem aField_wordOf (o a : BitVec 4) (m : Byte) : aField (wordOf o a m) = a := by
  have h1 := a.isLt
  have h2 := m.isLt
  apply BitVec.eq_of_toNat_eq
  rw [aField_toNat, wordOf_toNat]
  omega

@[simp] theorem immField_wordOf (o a : BitVec 4) (m : Byte) : immField (wordOf o a m) = m := by
  have h2 := m.isLt
  apply BitVec.eq_of_toNat_eq
  rw [immField_toNat, wordOf_toNat]
  omega

end Sys2Proof
end

