-- ==== Sys2Proof/Laws/State.lean ====
section
/-! SUPPORT. The small lemmas of ports and of the record updates of State: one per field per named update, all true by rfl. -/

namespace Sys2Proof

@[simp] theorem Port.read_write_self {α : Type} (v : Port α) (p : PortBit) (a : α) :
    (v.write p a).read p = a := by simp [Port.read, Port.write]

theorem Port.read_write_ne {α : Type} (v : Port α) {p q : PortBit} (a : α) (h : q ≠ p) :
    (v.write p a).read q = v.read q := by
  have : p.val ≠ q.val := fun e => h (Fin.ext e.symm)
  simp [Port.read, Port.write, this]

theorem Port.read_write {α : Type} (v : Port α) (p q : PortBit) (a : α) :
    (v.write p a).read q = if q = p then a else v.read q := by
  split
  · next h => subst h; simp
  · next h => exact Port.read_write_ne v a h

@[simp] theorem Port.read_fill {α : Type} (a : α) (p : PortBit) : (Port.fill a).read p = a := by
  simp [Port.read, Port.fill]

/-- Two ports are equal when every cell reads alike. -/
theorem Port.ext_read {α : Type} {v w : Port α} (h : ∀ p, v.read p = w.read p) : v = w := by
  apply Vector.ext
  intro i hi
  exact h ⟨i, hi⟩

namespace Machine

variable (s : State)

/-! ### `emit` -/
@[simp] theorem emit_pc (e : Event) : (s.emit e).pc = s.pc := rfl
@[simp] theorem emit_now (e : Event) : (s.emit e).now = s.now := rfl
@[simp] theorem emit_out (e : Event) : (s.emit e).out = s.out := rfl
@[simp] theorem emit_dir (e : Event) : (s.emit e).dir = s.dir := rfl
@[simp] theorem emit_rxd (e : Event) : (s.emit e).rxd = s.rxd := rfl
@[simp] theorem emit_rxs (e : Event) : (s.emit e).rxs = s.rxs := rfl
@[simp] theorem emit_rxk (e : Event) : (s.emit e).rxk = s.rxk := rfl
@[simp] theorem emit_acc (e : Event) : (s.emit e).acc = s.acc := rfl
@[simp] theorem emit_trace (e : Event) : (s.emit e).trace = s.trace ++ [e] := rfl
@[simp] theorem emit_fault (e : Event) : (s.emit e).fault = s.fault := rfl
@[simp] theorem emit_params (e : Event) : (s.emit e).params = s.params := rfl

/-! ### `pinWrite` -/
@[simp] theorem pinWrite_pc (p : PortBit) (v : Bit) : (s.pinWrite p v).pc = s.pc := rfl
@[simp] theorem pinWrite_now (p : PortBit) (v : Bit) : (s.pinWrite p v).now = s.now := rfl
@[simp] theorem pinWrite_out (p : PortBit) (v : Bit) :
    (s.pinWrite p v).out = s.out.write p (some v) := rfl
@[simp] theorem pinWrite_dir (p : PortBit) (v : Bit) : (s.pinWrite p v).dir = s.dir := rfl
@[simp] theorem pinWrite_rxd (p : PortBit) (v : Bit) : (s.pinWrite p v).rxd = s.rxd := rfl
@[simp] theorem pinWrite_rxs (p : PortBit) (v : Bit) : (s.pinWrite p v).rxs = s.rxs := rfl
@[simp] theorem pinWrite_rxk (p : PortBit) (v : Bit) : (s.pinWrite p v).rxk = s.rxk := rfl
@[simp] theorem pinWrite_acc (p : PortBit) (v : Bit) : (s.pinWrite p v).acc = s.acc := rfl
@[simp] theorem pinWrite_trace (p : PortBit) (v : Bit) :
    (s.pinWrite p v).trace = s.trace ++ [.write p v s.now] := rfl
@[simp] theorem pinWrite_fault (p : PortBit) (v : Bit) : (s.pinWrite p v).fault = s.fault := rfl
@[simp] theorem pinWrite_params (p : PortBit) (v : Bit) : (s.pinWrite p v).params = s.params := rfl

/-! ### `pinDir` -/
@[simp] theorem pinDir_pc (p : PortBit) (d : Direction) : (s.pinDir p d).pc = s.pc := rfl
@[simp] theorem pinDir_now (p : PortBit) (d : Direction) : (s.pinDir p d).now = s.now := rfl
@[simp] theorem pinDir_out (p : PortBit) (d : Direction) : (s.pinDir p d).out = s.out := rfl
@[simp] theorem pinDir_dir (p : PortBit) (d : Direction) :
    (s.pinDir p d).dir = s.dir.write p (some d) := rfl
@[simp] theorem pinDir_rxd (p : PortBit) (d : Direction) : (s.pinDir p d).rxd = s.rxd := rfl
@[simp] theorem pinDir_rxs (p : PortBit) (d : Direction) : (s.pinDir p d).rxs = s.rxs := rfl
@[simp] theorem pinDir_rxk (p : PortBit) (d : Direction) : (s.pinDir p d).rxk = s.rxk := rfl
@[simp] theorem pinDir_acc (p : PortBit) (d : Direction) : (s.pinDir p d).acc = s.acc := rfl
@[simp] theorem pinDir_trace (p : PortBit) (d : Direction) :
    (s.pinDir p d).trace = s.trace ++ [.dir p d s.now] := rfl
@[simp] theorem pinDir_fault (p : PortBit) (d : Direction) : (s.pinDir p d).fault = s.fault := rfl
@[simp] theorem pinDir_params (p : PortBit) (d : Direction) : (s.pinDir p d).params = s.params := rfl

/-! ### `pinRead` -/
@[simp] theorem pinRead_pc (p : PortBit) : (s.pinRead p).pc = s.pc := rfl
@[simp] theorem pinRead_now (p : PortBit) : (s.pinRead p).now = s.now := rfl
@[simp] theorem pinRead_out (p : PortBit) : (s.pinRead p).out = s.out := rfl
@[simp] theorem pinRead_dir (p : PortBit) : (s.pinRead p).dir = s.dir := rfl
@[simp] theorem pinRead_rxd (p : PortBit) : (s.pinRead p).rxd = s.rxd := rfl
@[simp] theorem pinRead_rxs (p : PortBit) : (s.pinRead p).rxs = s.rxs := rfl
@[simp] theorem pinRead_rxk (p : PortBit) : (s.pinRead p).rxk = s.rxk := rfl
@[simp] theorem pinRead_acc (p : PortBit) : (s.pinRead p).acc = s.acc := rfl
@[simp] theorem pinRead_trace (p : PortBit) :
    (s.pinRead p).trace = s.trace ++ [.read p s.rxLevel s.now] := rfl
@[simp] theorem pinRead_fault (p : PortBit) : (s.pinRead p).fault = s.fault := rfl
@[simp] theorem pinRead_params (p : PortBit) : (s.pinRead p).params = s.params := rfl

/-! ### `delay` -/
@[simp] theorem delay_pc (d : Nat) : (s.delay d).pc = s.pc := rfl
@[simp] theorem delay_now (d : Nat) : (s.delay d).now = s.now + d := rfl
@[simp] theorem delay_out (d : Nat) : (s.delay d).out = s.out := rfl
@[simp] theorem delay_dir (d : Nat) : (s.delay d).dir = s.dir := rfl
@[simp] theorem delay_rxd (d : Nat) : (s.delay d).rxd = s.rxd := rfl
@[simp] theorem delay_rxs (d : Nat) : (s.delay d).rxs = s.rxs := rfl
@[simp] theorem delay_rxk (d : Nat) : (s.delay d).rxk = s.rxk := rfl
@[simp] theorem delay_acc (d : Nat) : (s.delay d).acc = s.acc := rfl
@[simp] theorem delay_trace (d : Nat) : (s.delay d).trace = s.trace := rfl
@[simp] theorem delay_fault (d : Nat) : (s.delay d).fault = s.fault := rfl
@[simp] theorem delay_params (d : Nat) : (s.delay d).params = s.params := rfl

/-! ### `advance` and `jumpTo` -/
@[simp] theorem advance_pc : s.advance.pc = s.pc + 1 := rfl
@[simp] theorem advance_now : s.advance.now = s.now := rfl
@[simp] theorem advance_out : s.advance.out = s.out := rfl
@[simp] theorem advance_dir : s.advance.dir = s.dir := rfl
@[simp] theorem advance_rxd : s.advance.rxd = s.rxd := rfl
@[simp] theorem advance_rxs : s.advance.rxs = s.rxs := rfl
@[simp] theorem advance_rxk : s.advance.rxk = s.rxk := rfl
@[simp] theorem advance_acc : s.advance.acc = s.acc := rfl
@[simp] theorem advance_trace : s.advance.trace = s.trace := rfl
@[simp] theorem advance_fault : s.advance.fault = s.fault := rfl
@[simp] theorem advance_params : s.advance.params = s.params := rfl
@[simp] theorem jumpTo_pc (t : Nat) : (s.jumpTo t).pc = t := rfl
@[simp] theorem jumpTo_now (t : Nat) : (s.jumpTo t).now = s.now := rfl
@[simp] theorem jumpTo_out (t : Nat) : (s.jumpTo t).out = s.out := rfl
@[simp] theorem jumpTo_dir (t : Nat) : (s.jumpTo t).dir = s.dir := rfl
@[simp] theorem jumpTo_rxd (t : Nat) : (s.jumpTo t).rxd = s.rxd := rfl
@[simp] theorem jumpTo_rxs (t : Nat) : (s.jumpTo t).rxs = s.rxs := rfl
@[simp] theorem jumpTo_rxk (t : Nat) : (s.jumpTo t).rxk = s.rxk := rfl
@[simp] theorem jumpTo_acc (t : Nat) : (s.jumpTo t).acc = s.acc := rfl
@[simp] theorem jumpTo_trace (t : Nat) : (s.jumpTo t).trace = s.trace := rfl
@[simp] theorem jumpTo_fault (t : Nat) : (s.jumpTo t).fault = s.fault := rfl
@[simp] theorem jumpTo_params (t : Nat) : (s.jumpTo t).params = s.params := rfl

/-! ### `raiseFault` -/
@[simp] theorem raiseFault_pc (c : FaultCode) (n : Nat) : (s.raiseFault c n).pc = s.pc := rfl
@[simp] theorem raiseFault_now (c : FaultCode) (n : Nat) : (s.raiseFault c n).now = s.now := rfl
@[simp] theorem raiseFault_out (c : FaultCode) (n : Nat) : (s.raiseFault c n).out = s.out := rfl
@[simp] theorem raiseFault_dir (c : FaultCode) (n : Nat) : (s.raiseFault c n).dir = s.dir := rfl
@[simp] theorem raiseFault_rxd (c : FaultCode) (n : Nat) : (s.raiseFault c n).rxd = s.rxd := rfl
@[simp] theorem raiseFault_rxs (c : FaultCode) (n : Nat) : (s.raiseFault c n).rxs = s.rxs := rfl
@[simp] theorem raiseFault_rxk (c : FaultCode) (n : Nat) : (s.raiseFault c n).rxk = s.rxk := rfl
@[simp] theorem raiseFault_acc (c : FaultCode) (n : Nat) : (s.raiseFault c n).acc = s.acc := rfl
@[simp] theorem raiseFault_trace (c : FaultCode) (n : Nat) : (s.raiseFault c n).trace = s.trace := rfl
@[simp] theorem raiseFault_fault (c : FaultCode) (n : Nat) :
    (s.raiseFault c n).fault = some ⟨c, s.pc, s.faultWord c⟩ := rfl
@[simp] theorem raiseFault_params (c : FaultCode) (n : Nat) : (s.raiseFault c n).params = s.params := rfl

/-! ### `sampleBit` -/
@[simp] theorem sampleBit_pc : s.sampleBit.pc = s.pc := rfl
@[simp] theorem sampleBit_now : s.sampleBit.now = s.now := rfl
@[simp] theorem sampleBit_out : s.sampleBit.out = s.out := rfl
@[simp] theorem sampleBit_dir : s.sampleBit.dir = s.dir := rfl
@[simp] theorem sampleBit_rxd : s.sampleBit.rxd = s.rxd := rfl
@[simp] theorem sampleBit_rxs : s.sampleBit.rxs = s.rxs := rfl
@[simp] theorem sampleBit_rxk : s.sampleBit.rxk = s.rxk := rfl
@[simp] theorem sampleBit_acc : s.sampleBit.acc = s.acc.write s.rxk (some s.rxLevel) := rfl
@[simp] theorem sampleBit_trace :
    s.sampleBit.trace = s.trace ++ [.read s.params.cfg.pinRX s.rxLevel s.now] := rfl
@[simp] theorem sampleBit_fault : s.sampleBit.fault = s.fault := rfl
@[simp] theorem sampleBit_params : s.sampleBit.params = s.params := rfl

/-! ### `nibbleOut`, the fields it does not write -/
@[simp] theorem nibbleOut_pc (n : Nibble) : (s.nibbleOut n).pc = s.pc := rfl
@[simp] theorem nibbleOut_now (n : Nibble) : (s.nibbleOut n).now = s.now := rfl
@[simp] theorem nibbleOut_dir (n : Nibble) : (s.nibbleOut n).dir = s.dir := rfl
@[simp] theorem nibbleOut_rxd (n : Nibble) : (s.nibbleOut n).rxd = s.rxd := rfl
@[simp] theorem nibbleOut_rxs (n : Nibble) : (s.nibbleOut n).rxs = s.rxs := rfl
@[simp] theorem nibbleOut_rxk (n : Nibble) : (s.nibbleOut n).rxk = s.rxk := rfl
@[simp] theorem nibbleOut_acc (n : Nibble) : (s.nibbleOut n).acc = s.acc := rfl
@[simp] theorem nibbleOut_fault (n : Nibble) : (s.nibbleOut n).fault = s.fault := rfl
@[simp] theorem nibbleOut_params (n : Nibble) : (s.nibbleOut n).params = s.params := rfl

/-! ### `powerOn` -/
@[simp] theorem powerOn_params (p : Params) : (State.powerOn p).params = p := rfl
@[simp] theorem powerOn_trace (p : Params) : (State.powerOn p).trace = [] := rfl
@[simp] theorem powerOn_fault (p : Params) : (State.powerOn p).fault = none := rfl
@[simp] theorem powerOn_rxs (p : Params) : (State.powerOn p).rxs = .none := rfl
@[simp] theorem powerOn_out (p : Params) : (State.powerOn p).out = Port.fill none := rfl
@[simp] theorem powerOn_acc (p : Params) : (State.powerOn p).acc = Port.fill none := rfl

end Machine

end Sys2Proof
end

