-- ==== Sys2Proof/Laws/Ops.lean ====
section
/-! SUPPORT. One lemma per shared operation, saying once what it can do; the provers cite these instead of unfolding. -/

namespace Sys2Proof.Machine

/-! ### Outcomes -/

@[simp] theorem andThen_next (s : State) (k : State → Result) : andThen (.next s) k = k s := rfl
@[simp] theorem andThen_fault (f : Fault) (k : State → Result) : andThen (.fault f) k = .fault f := rfl
@[simp] theorem andThen_refused (f : Refusal) (k : State → Result) : andThen (.refused f) k = .refused f := rfl

/-- A sequence answers next only through a next state of its first part. -/
theorem andThen_eq_next {r : Result} {k : State → Result} {t : State} (h : andThen r k = .next t) :
    ∃ s, r = .next s ∧ k s = .next t := by
  cases r with
  | next s => exact ⟨s, rfl, h⟩
  | fault f => cases h
  | refused f => cases h

/-- Reading a written latch goes on with its value. -/
theorem withLatch_some {s : State} {p : PortBit} {v : Bit} (h : s.out.read p = some v) (k : Bit → Result) :
    withLatch s p k = k v := by simp [withLatch, h]

/-- A read of a latch answers next only where the latch is written. -/
theorem withLatch_eq_next {s t : State} {p : PortBit} {k : Bit → Result} (h : withLatch s p k = .next t) :
    ∃ v, s.out.read p = some v ∧ k v = .next t := by
  unfold withLatch at h
  split at h
  · next v hv => exact ⟨v, hv, h⟩
  · cases h

/-! ### The entry check -/

/-- The entry check finds nothing exactly where all six LCD pins are outputs (41_lcd.md rule R130). -/
theorem lcdCheck_eq_none {s : State} :
    s.lcdCheck = none ↔ ∀ p ∈ lcdPins s.params.cfg, s.dir.read p = some .output := by
  simp [State.lcdCheck, List.find?_eq_none]

/-- A pin the entry check finds is an LCD pin that is no output. -/
theorem lcdCheck_eq_some {s : State} {p : PortBit} (h : s.lcdCheck = some p) :
    p ∈ lcdPins s.params.cfg ∧ s.dir.read p ≠ some .output := by
  have h1 := List.find?_some h
  have h2 := List.mem_of_find?_eq_some h
  exact ⟨h2, by simpa using h1⟩

/-- With all six pins outputs the operation runs. -/
theorem withLcdCheck_ready {s : State} (h : ∀ p ∈ lcdPins s.params.cfg, s.dir.read p = some .output)
    (k : State → Result) : withLcdCheck s k = k s := by
  simp [withLcdCheck, lcdCheck_eq_none.mpr h]

/-- The entry check answers next with `F_DIR_OUT` raised, or as the operation does. -/
theorem withLcdCheck_eq_next {s t : State} {k : State → Result} (h : withLcdCheck s k = .next t) :
    (∃ p, s.lcdCheck = some p ∧ t = s.raiseFault .dirOut p.val) ∨
    ((∀ p ∈ lcdPins s.params.cfg, s.dir.read p = some .output) ∧ k s = .next t) := by
  unfold withLcdCheck at h
  split at h
  · next p hp => exact .inl ⟨p, hp, by simpa using h.symm⟩
  · next hn => exact .inr ⟨lcdCheck_eq_none.mp hn, h⟩

/-! ### ROM -/

/-- A read below the top of ROM gives the byte (20_memory.md rule R61). -/
theorem memRead_of_lt {m : Memory} {a : Nat} (h : a < 256) : memRead m a = some (m.read a) := by
  simp [memRead, Memory.size, Nat.not_le.mpr h]

/-! ### A strobe -/

/-- Everything a strobe can do (41_lcd.md rule R132). -/
theorem strobe_eq_next {s t : State} (h : strobe s = .next t) :
    ∃ e rs n, s.out.read s.params.cfg.pinE = some e ∧
      t.now = s.now + Cfg.transferCost s.params.cfg ∧
      t.trace = s.trace ++
        [.write s.params.cfg.pinE true (s.now + s.params.cfg.tSetup),
         .write s.params.cfg.pinE false (s.now + s.params.cfg.tSetup + s.params.cfg.tStrobe),
         .strobe rs n (s.now + s.params.cfg.tSetup) (s.now + s.params.cfg.tSetup + s.params.cfg.tStrobe) (!e)] ∧
      t.out = (s.out.write s.params.cfg.pinE (some true)).write s.params.cfg.pinE (some false) ∧
      t.pc = s.pc ∧ t.dir = s.dir ∧ t.rxd = s.rxd ∧ t.rxs = s.rxs ∧ t.rxk = s.rxk ∧ t.acc = s.acc ∧
      t.fault = s.fault ∧ t.params = s.params := by
  unfold strobe at h
  obtain ⟨e, he, h⟩ := withLatch_eq_next h
  obtain ⟨rs, _, h⟩ := withLatch_eq_next h
  obtain ⟨b3, _, h⟩ := withLatch_eq_next h
  obtain ⟨b2, _, h⟩ := withLatch_eq_next h
  obtain ⟨b1, _, h⟩ := withLatch_eq_next h
  obtain ⟨b0, _, h⟩ := withLatch_eq_next h
  injection h with h
  subst h
  refine ⟨e, rs, nibbleOf b3 b2 b1 b0, he, ?_, ?_, ?_, rfl, rfl, rfl, rfl, rfl, rfl, rfl, rfl⟩ <;>
    simp [State.raiseE, State.lowerE, Cfg.transferCost, risingEdge, Nat.add_assoc]

/-! ### What LCD operations are made of -/

/-- `t` comes from `s` by bus actions: latch writes of RS and D0..D3, delays, strobes. -/
inductive BusRun : State → State → Prop where
  | refl (s : State) : BusRun s s
  | write {s t : State} {p : PortBit} (v : Bit) (hp : p ∈ lcdPins s.params.cfg) (hE : p ≠ s.params.cfg.pinE ∨ ¬ s.params.cfg.pins.Nodup)
      (h : BusRun (s.pinWrite p v) t) : BusRun s t
  | delay {s t : State} (d : Nat) (h : BusRun (s.delay d) t) : BusRun s t
  | strobe {s u t : State} (hs : strobe s = .next u) (h : BusRun u t) : BusRun s t

theorem BusRun.trans {s t u : State} (h1 : BusRun s t) (h2 : BusRun t u) : BusRun s u := by
  induction h1 with
  | refl s => exact h2
  | write v hp hE _ ih => exact .write v hp hE (ih h2)
  | delay d _ ih => exact .delay d (ih h2)
  | strobe hs _ ih => exact .strobe hs (ih h2)

/-- The fields no bus action touches. -/
theorem BusRun.frame {s t : State} (h : BusRun s t) :
    t.pc = s.pc ∧ t.dir = s.dir ∧ t.rxd = s.rxd ∧ t.rxs = s.rxs ∧ t.rxk = s.rxk ∧ t.acc = s.acc ∧
    t.fault = s.fault ∧ t.params = s.params := by
  induction h with
  | refl s => simp
  | write v hp hE _ ih => simpa using ih
  | delay d _ ih => simpa using ih
  | strobe hs _ ih =>
    obtain ⟨_, _, _, _, _, _, _, h1, h2, h3, h4, h5, h6, h7, h8⟩ := strobe_eq_next hs
    simpa [h1, h2, h3, h4, h5, h6, h7, h8] using ih

/-- The pins RS, D0..D3 differ from E where the seven pins are distinct. -/
theorem dataPins_ne_pinE {c : Cfg} (h : c.pins.Nodup) :
    c.pinRS ≠ c.pinE ∧ c.pinD3 ≠ c.pinE ∧ c.pinD2 ≠ c.pinE ∧ c.pinD1 ≠ c.pinE ∧ c.pinD0 ≠ c.pinE := by
  simp [Cfg.pins] at h
  tauto

theorem transfer_busRun {s t : State} {n : Nibble} (h : transfer n s = .next t) : BusRun s t := by
  have hne : ∀ p : PortBit, (s.params.cfg.pins.Nodup → p ≠ s.params.cfg.pinE) →
      p ≠ s.params.cfg.pinE ∨ ¬ s.params.cfg.pins.Nodup := fun p hp =>
    (Classical.em _).elim (fun hd => .inl (hp hd)) .inr
  unfold transfer State.nibbleOut at h
  exact .write _ (by simp [lcdPins]) (hne _ fun hd => (dataPins_ne_pinE hd).2.1) <|
    .write _ (by simp [lcdPins]) (hne _ fun hd => (dataPins_ne_pinE hd).2.2.1) <|
    .write _ (by simp [lcdPins]) (hne _ fun hd => (dataPins_ne_pinE hd).2.2.2.1) <|
    .write _ (by simp [lcdPins]) (hne _ fun hd => (dataPins_ne_pinE hd).2.2.2.2) <|
    .strobe h (.refl _)

theorem pinRS_busRun {s t : State} (v : Bit) (h : BusRun (s.pinWrite s.params.cfg.pinRS v) t) : BusRun s t :=
  .write v (by simp [lcdPins])
    ((Classical.em s.params.cfg.pins.Nodup).elim (fun hd => .inl (dataPins_ne_pinE hd).1) .inr) h

theorem send2_busRun {s t : State} {rs : Bit} {b : Byte} (h : send2 rs b s = .next t) : BusRun s t := by
  obtain ⟨u, h1, h2⟩ := andThen_eq_next h
  exact pinRS_busRun rs ((transfer_busRun h1).trans (transfer_busRun h2))

theorem send1_busRun {s t : State} {b : Byte} (h : send1 b s = .next t) : BusRun s t :=
  pinRS_busRun false (transfer_busRun h)

theorem sendAll_busRun {cs : List InitSend} {s t : State} (h : sendAll cs s = .next t) : BusRun s t := by
  induction cs generalizing s with
  | nil =>
    injection h with h
    subst h
    exact .refl _
  | cons c cs ih =>
    obtain ⟨u, h1, h2⟩ := andThen_eq_next h
    cases c with
    | oneShot b => exact (send1_busRun h1).trans (ih h2)
    | twoNibble b => exact (send2_busRun h1).trans (ih h2)

/-- Everything the loop of `LCDSTR` can do: it ends at a zero byte, or runs off ROM with `F_ROM_RANGE` because no
byte from its address to the top is zero (41_lcd.md rule R139). -/
theorem sendString_next {n : Nat} {s t : State} (hn : n ≤ 256) (h : sendString n s = .next t) :
    ∃ u, BusRun s u ∧
      ((t = u.advance ∧ ∃ x, 256 - n ≤ x ∧ x < 256 ∧ s.params.rom.read x = 0) ∨
       ((∃ a, t = u.raiseFault .romRange a) ∧ ∀ x, 256 - n ≤ x → x < 256 → s.params.rom.read x ≠ 0)) := by
  induction n generalizing s with
  | zero =>
    injection h with h
    exact ⟨s, .refl _, .inr ⟨⟨_, h.symm⟩, fun x h1 h2 => by omega⟩⟩
  | succ n ih =>
    have hlt : 256 - (n + 1) < 256 := by omega
    unfold sendString at h
    rw [show Memory.size = 256 from rfl, memRead_of_lt hlt] at h
    simp only [isTerminator, beq_iff_eq] at h
    split at h
    · next hz =>
      injection h with h
      exact ⟨s, .refl _, .inl ⟨h.symm, _, le_refl _, hlt, hz⟩⟩
    · next hz =>
      obtain ⟨u, h1, h2⟩ := andThen_eq_next h
      obtain ⟨v, h3, h4⟩ := ih (by omega) h2
      rw [(send2_busRun h1).frame.2.2.2.2.2.2.2] at h4
      refine ⟨v, (send2_busRun h1).trans h3, h4.imp ?_ ?_⟩
      · rintro ⟨ht, x, hx, hx'⟩
        exact ⟨ht, x, by omega, hx'⟩
      · rintro ⟨ht, hx⟩
        refine ⟨ht, fun x h5 h6 => ?_⟩
        rcases Nat.lt_or_ge x (256 - n) with h7 | h7
        · rwa [show x = 256 - (n + 1) by omega]
        · exact hx x h7 h6

/-! ### A transfer that completes -/

@[simp] theorem nibbleOf_bits (n : Nibble) :
    nibbleOf (n.getLsbD 3) (n.getLsbD 2) (n.getLsbD 1) (n.getLsbD 0) = n := by
  revert n; decide

/-- Two transfers one after the other leave the bus as the second does. -/
theorem LcdSent.trans {s t u : State} {rs rs' : Bit} {n n' : Nibble} {k k' : Nat} {es es' : List Event}
    (h1 : LcdSent s t rs n k es) (h2 : LcdSent t u rs' n' k' es') :
    LcdSent s u rs' n' (k + k') (es ++ es') where
  now_eq := by rw [h2.now_eq, h1.now_eq, Nat.add_assoc]
  trace_eq := by rw [h2.trace_eq, h1.trace_eq, List.append_assoc]
  out_eq p := by
    rw [h2.out_eq, h1.params_eq]
    simp only [busLatch, h1.out_eq]
    split_ifs <;> rfl
  dir_eq := h2.dir_eq.trans h1.dir_eq
  rxd_eq := h2.rxd_eq.trans h1.rxd_eq
  rxs_eq := h2.rxs_eq.trans h1.rxs_eq
  rxk_eq := h2.rxk_eq.trans h1.rxk_eq
  acc_eq := h2.acc_eq.trans h1.acc_eq
  params_eq := h2.params_eq.trans h1.params_eq

/-- The latches after a nibble is presented and E is pulsed (41_lcd.md rules R131, R132). -/
theorem read_after_transfer {c : Cfg} {o : Port (Option Bit)} {rs : Bit} (n : Nibble) (hd : c.pins.Nodup)
    (hrs : o.read c.pinRS = some rs) (p : PortBit) :
    ((((((o.write c.pinD3 (some (n.getLsbD 3))).write c.pinD2 (some (n.getLsbD 2))).write
      c.pinD1 (some (n.getLsbD 1))).write c.pinD0 (some (n.getLsbD 0))).write c.pinE (some true)).write
      c.pinE (some false)).read p = busLatch c rs n o p := by
  simp only [Cfg.pins, List.nodup_cons, List.mem_cons, List.not_mem_nil, or_false, not_or, List.nodup_nil] at hd
  simp only [Port.read_write, busLatch]
  grind

/-- A strobe with every latch it reads written (41_lcd.md rule R132). -/
theorem strobe_run {s : State} {e rs b3 b2 b1 b0 : Bit} (he : s.out.read s.params.cfg.pinE = some e)
    (hrs : s.raiseE.lowerE.out.read s.params.cfg.pinRS = some rs)
    (h3 : s.raiseE.lowerE.out.read s.params.cfg.pinD3 = some b3)
    (h2 : s.raiseE.lowerE.out.read s.params.cfg.pinD2 = some b2)
    (h1 : s.raiseE.lowerE.out.read s.params.cfg.pinD1 = some b1)
    (h0 : s.raiseE.lowerE.out.read s.params.cfg.pinD0 = some b0) :
    strobe s = .next ((s.raiseE.lowerE.emit (.strobe rs (nibbleOf b3 b2 b1 b0) (s.now + s.params.cfg.tSetup)
      (s.now + s.params.cfg.tSetup + s.params.cfg.tStrobe) (!e))).delay s.params.cfg.tProc) := by
  have hp : s.raiseE.lowerE.params = s.params := rfl
  unfold strobe
  simp only [hp, withLatch_some he, withLatch_some hrs, withLatch_some h3, withLatch_some h2, withLatch_some h1,
    withLatch_some h0]
  rfl

/-- One transfer with RS and E written and the pins distinct (41_lcd.md rules R131, R132). -/
theorem transfer_sent {s : State} {e rs : Bit} (n : Nibble) (hd : s.params.cfg.pins.Nodup)
    (he : s.out.read s.params.cfg.pinE = some e) (hrs : s.out.read s.params.cfg.pinRS = some rs) :
    ∃ t, transfer n s = .next t ∧ t.pc = s.pc ∧ t.fault = s.fault ∧
      LcdSent s t rs n (Cfg.transferCost s.params.cfg) (transferEvents s.params.cfg rs n s.now (!e)) := by
  have hd' := hd
  simp only [Cfg.pins, List.nodup_cons, List.mem_cons, List.not_mem_nil, or_false, not_or,
    List.nodup_nil] at hd'
  have hE : (s.nibbleOut n).out.read s.params.cfg.pinE = some e := by
    simp only [State.nibbleOut, pinWrite_out, Port.read_write]
    grind
  have hout : ∀ p, (s.nibbleOut n).raiseE.lowerE.out.read p = busLatch s.params.cfg rs n s.out p := by
    intro p
    rw [← read_after_transfer n hd hrs p]
    simp only [State.raiseE, State.lowerE, State.nibbleOut, pinWrite_out, pinWrite_params, delay_out,
      delay_params]
  have h0 : (s.nibbleOut n).raiseE.lowerE.out.read s.params.cfg.pinRS = some rs := by
    rw [hout]; simp [busLatch]
  have h3 : (s.nibbleOut n).raiseE.lowerE.out.read s.params.cfg.pinD3 = some (n.getLsbD 3) := by
    rw [hout]; simp only [busLatch]; grind
  have h2 : (s.nibbleOut n).raiseE.lowerE.out.read s.params.cfg.pinD2 = some (n.getLsbD 2) := by
    rw [hout]; simp only [busLatch]; grind
  have h1 : (s.nibbleOut n).raiseE.lowerE.out.read s.params.cfg.pinD1 = some (n.getLsbD 1) := by
    rw [hout]; simp only [busLatch]; grind
  have h4 : (s.nibbleOut n).raiseE.lowerE.out.read s.params.cfg.pinD0 = some (n.getLsbD 0) := by
    rw [hout]; simp only [busLatch]; grind
  have hrun := strobe_run (s := s.nibbleOut n) hE h0 h3 h2 h1 h4
  rw [nibbleOf_bits] at hrun
  refine ⟨_, hrun, ?_, ?_, ⟨?_, ?_, ?_, ?_, ?_, ?_, ?_, ?_, ?_⟩⟩
  case refine_5 => intro p; rw [delay_out, emit_out]; exact hout p
  all_goals simp [State.raiseE, State.lowerE, Cfg.transferCost, transferEvents, nibbleEvents, State.nibbleOut,
    Nat.add_assoc]

end Sys2Proof.Machine
end

