-- ==== Sys2Proof/Laws/Lcd.lean ====
section
/-! SUPPORT. The LCD sequences that complete: what a byte, a one-shot command and the entry of an LCD operation do (41_lcd.md rules R130 to R134). -/

namespace Sys2Proof.Machine

/-- After a transfer E is low. -/
theorem LcdSent.eLatch {s t : State} {rs : Bit} {n : Nibble} {k : Nat} {es : List Event}
    (h : LcdSent s t rs n k es) (hd : s.params.cfg.pins.Nodup) :
    t.out.read t.params.cfg.pinE = some false := by
  have := dataPins_ne_pinE hd
  rw [h.params_eq, h.out_eq]
  simp [busLatch, Ne.symm this.1]

/-- After a transfer the RS latch holds the mode sent. -/
theorem LcdSent.rsLatch {s t : State} {rs : Bit} {n : Nibble} {k : Nat} {es : List Event}
    (h : LcdSent s t rs n k es) : t.out.read t.params.cfg.pinRS = some rs := by
  rw [h.params_eq, h.out_eq]
  simp [busLatch]

/-- A change of mode before a transfer is part of the transfer's effect. -/
theorem LcdSent.after_pinRS {s t : State} {rs : Bit} {n : Nibble} {k : Nat} {es : List Event}
    (h : LcdSent (s.pinWrite s.params.cfg.pinRS rs) t rs n k es) :
    LcdSent s t rs n k (.write s.params.cfg.pinRS rs s.now :: es) where
  now_eq := by simpa using h.now_eq
  trace_eq := by simpa using h.trace_eq
  out_eq p := by
    rw [h.out_eq]
    simp only [pinWrite_params, pinWrite_out, busLatch, Port.read_write]
    split_ifs <;> rfl
  dir_eq := by simpa using h.dir_eq
  rxd_eq := by simpa using h.rxd_eq
  rxs_eq := by simpa using h.rxs_eq
  rxk_eq := by simpa using h.rxk_eq
  acc_eq := by simpa using h.acc_eq
  params_eq := by simpa using h.params_eq

/-- Waiting before transfers is part of their effect. -/
theorem LcdSent.after_delay {s t : State} {rs : Bit} {n : Nibble} {k d : Nat} {es : List Event}
    (h : LcdSent (s.delay d) t rs n k es) : LcdSent s t rs n (d + k) es where
  now_eq := by simpa [Nat.add_assoc] using h.now_eq
  trace_eq := by simpa using h.trace_eq
  out_eq p := by rw [h.out_eq]; simp
  dir_eq := by simpa using h.dir_eq
  rxd_eq := by simpa using h.rxd_eq
  rxs_eq := by simpa using h.rxs_eq
  rxk_eq := by simpa using h.rxk_eq
  acc_eq := by simpa using h.acc_eq
  params_eq := by simpa using h.params_eq

/-- Writing RS leaves E's latch alone where the pins are distinct. -/
theorem eLatch_after_pinRS {s : State} {e rs : Bit} (hd : s.params.cfg.pins.Nodup)
    (he : s.out.read s.params.cfg.pinE = some e) :
    (s.pinWrite s.params.cfg.pinRS rs).out.read (s.pinWrite s.params.cfg.pinRS rs).params.cfg.pinE = some e := by
  simp [Port.read_write, Ne.symm (dataPins_ne_pinE hd).1, he]

/-- `Send1(b)` (rule R134). -/
theorem send1_sent {s : State} {e : Bit} (b : Byte) (hd : s.params.cfg.pins.Nodup)
    (he : s.out.read s.params.cfg.pinE = some e) :
    ∃ t, send1 b s = .next t ∧ t.pc = s.pc ∧ t.fault = s.fault ∧
      LcdSent s t false (oneshotNibble s.params.cfg b) (Cfg.transferCost s.params.cfg)
        (oneshotEvents s.params.cfg b s.now (!e)) := by
  obtain ⟨t, h1, h2, h3, h4⟩ := transfer_sent (s := s.pinWrite s.params.cfg.pinRS false) (rs := false)
    (oneshotNibble s.params.cfg b) hd (eLatch_after_pinRS hd he) (by simp)
  exact ⟨t, h1, by simpa using h2, by simpa using h3, h4.after_pinRS⟩

/-- `Send2(rs, b)` (rule R133). -/
theorem send2_sent {s : State} {e : Bit} (rs : Bit) (b : Byte) (hd : s.params.cfg.pins.Nodup)
    (he : s.out.read s.params.cfg.pinE = some e) :
    ∃ t, send2 rs b s = .next t ∧ t.pc = s.pc ∧ t.fault = s.fault ∧
      LcdSent s t rs (lowNibble b) (2 * Cfg.transferCost s.params.cfg)
        (byteEvents s.params.cfg rs b s.now (!e)) := by
  obtain ⟨u, h1, h2, h3, h4⟩ := transfer_sent (s := s.pinWrite s.params.cfg.pinRS rs) (rs := rs)
    (highNibble b) hd (eLatch_after_pinRS hd he) (by simp)
  have hu : u.params = s.params := h4.params_eq
  obtain ⟨t, k1, k2, k3, k4⟩ := transfer_sent (s := u) (rs := rs) (lowNibble b) (by rw [hu]; exact hd)
    (h4.eLatch hd) h4.rsLatch
  have h := (h4.trans k4).after_pinRS
  refine ⟨t, ?_, by simpa [h2] using k2, by simpa [h3] using k3, ?_⟩
  · show andThen (transfer (highNibble b) (s.pinWrite s.params.cfg.pinRS rs)) _ = _
    rw [h1]
    exact k1
  · have hnow : u.now = s.now + Cfg.transferCost s.params.cfg := h4.now_eq
    simpa only [byteEvents, hu, hnow, Nat.two_mul, pinWrite_params, pinWrite_now, Bool.not_false] using h

end Sys2Proof.Machine
end

