-- ==== Sys2Proof/Laws/Memory.lean ====
section
/-! SUPPORT. The laws of the ROM's byte list: every operation keeps the canonical form. -/

namespace Sys2Proof

theorem Memory.wfFrom_mono {lo lo' : Nat} {m : Memory} (h : lo ≤ lo') (hw : Memory.wfFrom lo' m = true) :
    Memory.wfFrom lo m = true := by
  cases m with
  | nil => rfl
  | cons c m =>
    obtain ⟨k, v⟩ := c
    simp only [Memory.wfFrom, Bool.and_eq_true, decide_eq_true_eq] at hw ⊢
    exact ⟨⟨⟨h.trans hw.1.1.1, hw.1.1.2⟩, hw.1.2⟩, hw.2⟩

/-- Setting an entry keeps the canonical form above any bound at or below its address. -/
theorem Memory.put_wfFrom {lo : Nat} {m : Memory} {a : Nat} {b : Byte} (hlo : lo ≤ a) (ha : a < Memory.size)
    (hw : Memory.wfFrom lo m = true) : Memory.wfFrom lo (m.put a b) = true := by
  induction m generalizing lo with
  | nil =>
    unfold Memory.put
    split
    · rfl
    · next hb => simp [Memory.wfFrom, hlo, ha, hb]
  | cons c m ih =>
    obtain ⟨k, v⟩ := c
    simp only [Memory.wfFrom, Bool.and_eq_true, decide_eq_true_eq] at hw
    obtain ⟨⟨⟨h1, h2⟩, h3⟩, h4⟩ := hw
    unfold Memory.put
    split
    · next hak =>
      split
      · simp [Memory.wfFrom, h1, h2, h3, h4]
      · next hb => simp [Memory.wfFrom, hlo, ha, hb, h2, h3, h4]; omega
    · next hak =>
      split
      · next hk =>
        split
        · exact Memory.wfFrom_mono (by omega) h4
        · next hb => simp [Memory.wfFrom, h1, h2, hb, h4]
      · next hk =>
        simp only [Memory.wfFrom, Bool.and_eq_true, decide_eq_true_eq]
        exact ⟨⟨⟨h1, h2⟩, h3⟩, ih (by omega) h4⟩

/-- Placing a byte keeps the canonical form. -/
theorem Memory.store_wf {m : Memory} {a : Nat} {b : Byte} (hw : m.wf = true) : (m.store a b).wf = true := by
  unfold Memory.store
  split
  · next ha => exact Memory.put_wfFrom (Nat.zero_le a) ha hw
  · exact hw

/-- Placing bytes keeps the canonical form. -/
theorem Memory.storeAll_wf {m : Memory} {a : Nat} {bs : List Byte} (hw : m.wf = true) :
    (m.storeAll a bs).wf = true := by
  induction bs generalizing m a with
  | nil => exact hw
  | cons b bs ih => exact ih (Memory.store_wf hw)

/-- The ROM of the power-on state after reset is in canonical form. -/
theorem labelRom_wf (a : Byte) : (labelRom a).wf = true := Memory.storeAll_wf rfl

end Sys2Proof
end

