-- ==== Sys2Proof/Laws/PerInstr.lean ====
section
/-! SUPPORT. What holds of every operation as syntax: the word of an operation matches its row of the opcode table and is legal (30_encoding.md rules R83, R84, R86). One lemma per operation. -/

namespace Sys2Proof.Laws

/-- The word of `i` matches the mask and match of its own row, that row is in the table, and the word is legal. -/
def EncodesInRow.Statement (i : Instr) : Prop :=
  (rowOf i).hits (encode i) = true ∧ rowOf i ∈ opcodeTable ∧ illegalWord (encode i) = false

theorem EncodesInRow.pinout (p : PortBit) (l : Bit) : EncodesInRow.Statement (.pinout p l) := by
  unfold EncodesInRow.Statement; revert p l; decide
theorem EncodesInRow.pinin (p : PortBit) : EncodesInRow.Statement (.pinin p) := by
  unfold EncodesInRow.Statement; revert p; decide
theorem EncodesInRow.delay (s : Selector) : EncodesInRow.Statement (.delay s) := by
  unfold EncodesInRow.Statement; cases s <;> decide
theorem EncodesInRow.lcdcmd1 (b : Byte) : EncodesInRow.Statement (.lcdcmd1 b) := by
  unfold EncodesInRow.Statement; revert b; decide
theorem EncodesInRow.lcdcmd (b : Byte) : EncodesInRow.Statement (.lcdcmd b) := by
  unfold EncodesInRow.Statement; revert b; decide
theorem EncodesInRow.lcdchr (b : Byte) : EncodesInRow.Statement (.lcdchr b) := by
  unfold EncodesInRow.Statement; revert b; decide
theorem EncodesInRow.lcdchrr : EncodesInRow.Statement .lcdchrr := by
  unfold EncodesInRow.Statement; decide
theorem EncodesInRow.lcdstr (a : Byte) : EncodesInRow.Statement (.lcdstr a) := by
  unfold EncodesInRow.Statement; revert a; decide
theorem EncodesInRow.lcdinit : EncodesInRow.Statement .lcdinit := by
  unfold EncodesInRow.Statement; decide
theorem EncodesInRow.rxbyte : EncodesInRow.Statement .rxbyte := by
  unfold EncodesInRow.Statement; decide
theorem EncodesInRow.jmp (t : Byte) : EncodesInRow.Statement (.jmp t) := by
  unfold EncodesInRow.Statement; revert t; decide

end Sys2Proof.Laws
end

