-- ==== Sys2Proof/Laws/Step.lean ====
section
/-! SUPPORT. Everything an LCD operation, an operation and a step can do, said once: if it answers next, then one of these cases holds. -/

namespace Sys2Proof.Machine

/-- What an LCD operation answers when it answers next: `F_DIR_OUT` before any event, bus actions and then
the next operation, or bus actions and then `F_ROM_RANGE` (41_lcd.md rules R130, R139). -/
def LcdOutcome (s t : State) : Prop :=
  (∃ p, s.lcdCheck = some p ∧ t = s.raiseFault .dirOut p.val) ∨
  ((∀ p ∈ lcdPins s.params.cfg, s.dir.read p = some .output) ∧
    ∃ u, BusRun s u ∧ (t = u.advance ∨ ∃ a, t = u.raiseFault .romRange a))

theorem lcdOutcome_of_busRun {s t : State} {k : State → Result} (h : withLcdCheck s (fun s => andThen (k s) finish) = .next t)
    (hk : ∀ u, k s = .next u → BusRun s u) : LcdOutcome s t := by
  rcases withLcdCheck_eq_next h with h | ⟨hr, h⟩
  · exact .inl h
  · obtain ⟨u, h1, h2⟩ := andThen_eq_next h
    injection h2 with h2
    exact .inr ⟨hr, u, hk u h1, .inl h2.symm⟩

theorem execLcdcmd1_next {b : Byte} {s t : State} (h : execLcdcmd1 b s = .next t) : LcdOutcome s t :=
  lcdOutcome_of_busRun h fun _ => send1_busRun

theorem execLcdcmd_next {b : Byte} {s t : State} (h : execLcdcmd b s = .next t) : LcdOutcome s t :=
  lcdOutcome_of_busRun h fun _ => send2_busRun

theorem execLcdchr_next {b : Byte} {s t : State} (h : execLcdchr b s = .next t) : LcdOutcome s t :=
  lcdOutcome_of_busRun h fun _ => send2_busRun

theorem execLcdchrr_next {s t : State} (h : execLcdchrr s = .next t) :
    (s.rxd = none ∧ t = s.raiseFault .unwritten 0) ∨ (s.rxd ≠ none ∧ LcdOutcome s t) := by
  unfold execLcdchrr at h
  split at h
  · next hr =>
    injection h with h
    exact .inl ⟨hr, h.symm⟩
  · next b hr => exact .inr ⟨by simp [hr], lcdOutcome_of_busRun h fun _ => send2_busRun⟩

theorem execLcdstr_next {a : Byte} {s t : State} (h : execLcdstr a s = .next t) : LcdOutcome s t := by
  rcases withLcdCheck_eq_next h with h | ⟨hr, h⟩
  · exact .inl h
  · obtain ⟨u, hu, h⟩ := sendString_next (Nat.sub_le _ _) h
    exact .inr ⟨hr, u, hu, h.imp And.left And.left⟩

/-- `LCDSTR` raises `F_ROM_RANGE` only with all LCD pins outputs and no zero byte from its address to the top of ROM
(41_lcd.md rules R130, R139). -/
theorem execLcdstr_romRange {a : Byte} {s t : State} {r : FaultRecord} (hf : s.fault = none)
    (h : execLcdstr a s = .next t) (ht : t.fault = some r) (hr : r.code = .romRange) :
    (∀ p ∈ lcdPins s.params.cfg, s.dir.read p = some .output) ∧
    ∀ x, a.toNat ≤ x → x < 256 → s.params.rom.read x ≠ 0 := by
  have ha := a.isLt
  rcases withLcdCheck_eq_next h with ⟨p, _, rfl⟩ | ⟨hd, h⟩
  · simp only [raiseFault_fault, Option.some.injEq] at ht
    subst ht
    cases hr
  · obtain ⟨u, hu, ⟨rfl, _⟩ | ⟨_, hx⟩⟩ := sendString_next (Nat.sub_le _ _) h
    · rw [advance_fault, hu.frame.2.2.2.2.2.2.1, hf] at ht
      cases ht
    · exact ⟨hd, fun x h1 h2 => hx x (by show 256 - (256 - a.toNat) ≤ x; omega) h2⟩

theorem execLcdinit_next {s t : State} (h : execLcdinit s = .next t) : LcdOutcome s t := by
  refine lcdOutcome_of_busRun (k := fun s => sendAll (initSends s.params.cfg) (s.delay s.params.cfg.tPwrup)) h ?_
  exact fun u hu => .delay _ (sendAll_busRun hu)

theorem execRxbyte_next {s t : State} (h : execRxbyte s = .next t) :
    (s.dir.read s.params.cfg.pinRX = some .input ∧
      t = { s with rxd := none, acc := Port.fill none, rxs := .hunt }) ∨
    (s.dir.read s.params.cfg.pinRX ≠ some .input ∧ t = s.raiseFault .dirIn s.params.cfg.pinRX.val) := by
  unfold execRxbyte at h
  split at h <;> (injection h with h; simp_all)

/-- The LCD operations. -/
def isLcd : Instr → Bool
  | .lcdcmd1 _ => true
  | .lcdcmd _ => true
  | .lcdchr _ => true
  | .lcdchrr => true
  | .lcdstr _ => true
  | .lcdinit => true
  | _ => false

/-- Everything an operation can do when it answers next. -/
theorem exec_next {i : Instr} {s t : State} (h : exec i s = .next t) :
    (∃ p l, i = .pinout p l ∧ t = ((s.pinDir p .output).pinWrite p l).advance) ∨
    (∃ p, i = .pinin p ∧ t = (s.pinDir p .input).advance) ∨
    (∃ sel, i = .delay sel ∧ t = (s.delay (dur s.params.cfg sel)).advance) ∨
    (isLcd i = true ∧ LcdOutcome s t) ∨
    (i = .lcdchrr ∧ s.rxd = none ∧ t = s.raiseFault .unwritten 0) ∨
    (i = .rxbyte ∧ s.dir.read s.params.cfg.pinRX = some .input ∧
      t = { s with rxd := none, acc := Port.fill none, rxs := .hunt }) ∨
    (i = .rxbyte ∧ s.dir.read s.params.cfg.pinRX ≠ some .input ∧
      t = s.raiseFault .dirIn s.params.cfg.pinRX.val) ∨
    (∃ a, i = .jmp a ∧ t = s.jumpTo a.toNat) := by
  cases i with
  | pinout p l =>
    injection h with h
    exact .inl ⟨p, l, rfl, h.symm⟩
  | pinin p =>
    injection h with h
    exact .inr (.inl ⟨p, rfl, h.symm⟩)
  | delay sel =>
    injection h with h
    exact .inr (.inr (.inl ⟨sel, rfl, h.symm⟩))
  | lcdcmd1 b => exact .inr (.inr (.inr (.inl ⟨rfl, execLcdcmd1_next h⟩)))
  | lcdcmd b => exact .inr (.inr (.inr (.inl ⟨rfl, execLcdcmd_next h⟩)))
  | lcdchr b => exact .inr (.inr (.inr (.inl ⟨rfl, execLcdchr_next h⟩)))
  | lcdchrr =>
    rcases execLcdchrr_next h with ⟨h1, h2⟩ | ⟨_, h2⟩
    · exact .inr (.inr (.inr (.inr (.inl ⟨rfl, h1, h2⟩))))
    · exact .inr (.inr (.inr (.inl ⟨rfl, h2⟩)))
  | lcdstr a => exact .inr (.inr (.inr (.inl ⟨rfl, execLcdstr_next h⟩)))
  | lcdinit => exact .inr (.inr (.inr (.inl ⟨rfl, execLcdinit_next h⟩)))
  | rxbyte =>
    rcases execRxbyte_next h with ⟨h1, h2⟩ | ⟨h1, h2⟩
    · exact .inr (.inr (.inr (.inr (.inr (.inl ⟨rfl, h1, h2⟩)))))
    · exact .inr (.inr (.inr (.inr (.inr (.inr (.inl ⟨rfl, h1, h2⟩))))))
  | jmp a =>
    injection h with h
    exact .inr (.inr (.inr (.inr (.inr (.inr (.inr ⟨a, rfl, h.symm⟩))))))

theorem rxHunt_next {s t : State} (h : rxHunt s = .next t) :
    (s.rxLevel = true ∧ t = (s.pinRead s.params.cfg.pinRX).delay s.params.cfg.tPoll) ∨
    (s.rxLevel = false ∧
      t = { ((s.pinRead s.params.cfg.pinRX).delay s.params.cfg.tHalf).delay s.params.cfg.tBit with
        rxk := 0, rxs := .sample }) := by
  unfold rxHunt startBitSeen at h
  split at h <;> (injection h with h; simp_all)

theorem rxSample_next {s t : State} (h : rxSample s = .next t) :
    (s.rxk ≠ 7 ∧ t = { s.sampleBit.delay s.params.cfg.tBit with rxk := s.rxk + 1 }) ∨
    (s.rxk = 7 ∧ ∃ b, accByte (s.acc.write s.rxk (some s.rxLevel)) = some b ∧
      t = { (s.sampleBit.delay s.params.cfg.tBit).delay s.params.cfg.tHalf with
        rxd := some b, acc := Port.fill none, rxs := .none }.advance) := by
  unfold rxSample rxComplete at h
  split at h
  · next hk =>
    split at h
    · next b hb =>
      injection h with h
      exact .inr ⟨hk, b, hb, h.symm⟩
    · cases h
  · next hk =>
    injection h with h
    exact .inl ⟨hk, h.symm⟩

/-- Everything a step can do when it answers next (43_control.md rule R190). -/
theorem step_next {s t : State} (h : step s = .next t) :
    s.params.wf = true ∧ s.fault = none ∧
    ((s.rxs = .hunt ∧ rxHunt s = .next t) ∨
     (s.rxs = .sample ∧ rxSample s = .next t) ∨
     (s.rxs = .none ∧ s.fetchWord = none ∧ t = s.raiseFault .pcRange s.pc) ∨
     (s.rxs = .none ∧ ∃ w why, s.fetchWord = some w ∧ decode w = .illegal why ∧
       t = s.raiseFault .illegal w.toNat) ∨
     (s.rxs = .none ∧ ∃ w i, s.fetchWord = some w ∧ decode w = .op i ∧ exec i s = .next t)) := by
  unfold step at h
  split at h
  · next hw =>
    split at h
    · cases h
    · next hf =>
      refine ⟨hw, hf, ?_⟩
      unfold runSequencer at h
      split at h
      · next hr => exact .inl ⟨hr, h⟩
      · next hr => exact .inr (.inl ⟨hr, h⟩)
      · next hr =>
        unfold fetchAndRun at h
        split at h
        · next w hfw =>
          unfold runWord at h
          split at h
          · next i hi => exact .inr (.inr (.inr (.inr ⟨hr, w, i, hfw, hi, h⟩)))
          · next why hi =>
            injection h with h
            exact .inr (.inr (.inr (.inl ⟨hr, w, why, hfw, hi, h.symm⟩)))
        · next hfw =>
          injection h with h
          exact .inr (.inr (.inl ⟨hr, hfw, h.symm⟩))
  · cases h

end Sys2Proof.Machine
end

