-- ==== Sys2Proof/Tests/Slice0.lean ====
section
/-! SUPPORT. Tests of the model on fixed values, with their source in spec/95_test_vectors.md, and one witness for every statement that has hypotheses: a concrete state and operands that meet them together. -/

namespace Sys2Proof.Tests

open Sys2Proof Sys2Proof.Machine

/-! ### States the tests start from -/

/-- After `LCDPINS` under `TP` (95_test_vectors.md section 1): the six LCD pins are outputs at 0, `pc` is 6. -/
def pinsReady : State :=
  { State.powerOn Params.tp with
    pc := 6
    dir := #v[some .output, some .output, some .input, none, some .output, some .output, some .output, some .output]
    out := #v[some false, some false, none, none, some false, some false, some false, some false] }

/-- The state with another program, ROM and line. -/
def on (s : State) (ws : List Word16) (rom : Memory := []) (w : Waveform := Waveform.idle) : State :=
  { s with params := { s.params with prog := ws, rom := rom, rxLine := w } }

/-- In the hunt, as the entry of `RXBYTE` leaves it, at a tick of a line. -/
def hunting (t : Nat) (w : Waveform) : State :=
  { on (State.powerOn Params.tp) [0xA000, 0xB001] [] w with now := t, rxs := .hunt }

/-- At the sample of bit `k` of 0x41, with the lower bits sampled, on a line of 1. -/
def sampling (k : Fin 8) : State :=
  { hunting 124 Waveform.idle with
    rxs := .sample
    rxk := k
    acc := Vector.ofFn fun j => if j < k then some ((0x41 : Byte).getLsbD j.val) else none }

/-- The strobes of a state, as `(rs, nibble, rise, fall, edge)`. -/
def strobes (s : State) : List (Bit × Nat × Nat × Nat × Bool) :=
  (strobesOf s.trace).map fun r => (r.rs, r.nibble.toNat, r.rise, r.fall, r.edge)

/-- What holds of the next state of an outcome. -/
def next (r : Result) (f : State → Bool) : Bool := (nextOf r).any f

/-- The state an outcome leads to. -/
def target (r : Result) (s : State) : State := (nextOf r).getD s

/-! ### Well-formedness: each check refuses an ill-formed term (rules R12, R86) -/

theorem test_refuses_opcode : badOpcode 0x0000 ∧ badOpcode 0xC000 ∧ badOpcode 0xF123 ∧ ¬ badOpcode 0xB0FF := by decide
theorem test_refuses_port_bit : badPortBit 0x1801 ∧ badPortBit 0x2800 ∧ ¬ badPortBit 0x2700 := by decide
theorem test_refuses_selector : badSelector 0x3600 ∧ ¬ badSelector 0x3500 := by decide
theorem test_refuses_unused_field :
    [0x1002, 0x2001, 0x3001, 0x4100, 0x5100, 0x6100, 0x8100, 0x7001, 0x7100, 0x9001, 0xA001, 0xB100].all badUnused :=
  by decide
theorem test_accepts_legal_words :
    [0x1000, 0x1701, 0x2200, 0x2700, 0x3000, 0x3500, 0x40FF, 0x50FF, 0x60FF, 0x7000, 0x80FF, 0x9000, 0xA000,
      0xB0FF].all (fun w => !illegalWord w) := by decide
theorem test_refuses_t_bit_zero : ({ Params.tp with cfg := { Cfg.tp with tBit := 0 } } : Params).wf = false := by decide
theorem test_refuses_t_poll_zero : ({ Params.tp with cfg := { Cfg.tp with tPoll := 0 } } : Params).wf = false := by decide
theorem test_refuses_equal_pins : ({ Params.tp with cfg := { Cfg.tp with pinD3 := 0 } } : Params).wf = false := by decide
theorem test_refuses_empty_program : ({ Params.tp with prog := [] } : Params).wf = false := by decide
theorem test_refuses_long_program :
    ({ Params.tp with prog := List.replicate 257 0xB000 } : Params).wf = false := by decide +kernel
theorem test_accepts_tp : Params.tp.wf = true := by decide
/-- The timing minima are no well-formedness condition (rule R12). -/
theorem test_accepts_short_strobe : ({ Params.tp with cfg := { Cfg.tp with tStrobe := 0 } } : Params).wf = true := by
  decide

/-! ### Decoding: vectors V-D1 and V-D2, every constructor -/

theorem test_decode_gpio : decode 0x1000 = .op (.pinout 0 false) ∧ decode 0x1701 = .op (.pinout 7 true) ∧
    decode 0x2200 = .op (.pinin 2) ∧ decode 0x2700 = .op (.pinin 7) := by decide
theorem test_decode_delay : decode 0x3000 = .op (.delay .half) ∧ decode 0x3100 = .op (.delay .bit) ∧
    decode 0x3200 = .op (.delay .proc) ∧ decode 0x3300 = .op (.delay .strobe) ∧
    decode 0x3400 = .op (.delay .pause) ∧ decode 0x3500 = .op (.delay .pwrup) := by decide
theorem test_decode_lcd_bytes : decode 0x4030 = .op (.lcdcmd1 0x30) ∧ decode 0x5028 = .op (.lcdcmd 0x28) ∧
    decode 0x6041 = .op (.lcdchr 0x41) ∧ decode 0x80FF = .op (.lcdstr 0xFF) := by decide
theorem test_decode_no_operand : decode 0x7000 = .op .lcdchrr ∧ decode 0x9000 = .op .lcdinit ∧
    decode 0xA000 = .op .rxbyte := by decide
theorem test_decode_jmp : decode 0xB0FF = .op (.jmp 0xFF) := by decide
theorem test_decode_illegal : decode 0x0000 = .illegal .opcode ∧ decode 0x1801 = .illegal .portBit ∧
    decode 0x3600 = .illegal .selector ∧ decode 0x4100 = .illegal .unusedField := by decide
theorem test_table_word : decodeTableWord 16 0x5028 = some (.lcdcmd 0x28) ∧ decodeTableWord 16 0xC000 = none := by decide

/-- The words of `CTRL` as rule R195 (43_control.md) lists them. -/
theorem test_ctrl_words : wordsOf Cfg.tp.ctrl = [0x1000, 0x1100, 0x1400, 0x1500, 0x1600, 0x1700, 0x9000, 0x5080,
    0x8000, 0x50C0, 0xA000, 0x7000, 0x3400, 0x5001, 0x5002, 0xB007] := by decide
/-- The assembly of `CTRL` gives `CTRL` (rules R88, R89, R195). -/
theorem test_assemble_ctrl : assemble Cfg.tp ctrlSource = some Cfg.tp.ctrl := by decide
/-- `HALT` is the jump to its own index (rule R89; program P1). -/
theorem test_assemble_halt : assemble Cfg.tp [.plain .lcdpins, .plain .rxbyte, .plain .lcdchrr, .plain .halt] =
    some (Cfg.tp.lcdpins ++ [.rxbyte, .lcdchrr, .jmp 8]) := by decide

/-- A label that two lines carry is refused where a `JMP` names it (log entry 18). -/
theorem test_assemble_label_twice : assemble Cfg.tp [⟨some "a", .rxbyte, none⟩, ⟨some "a", .rxbyte, none⟩,
    .plain (.jmp (.label "a"))] = none ∧ (assemble Cfg.tp [⟨some "a", .rxbyte, none⟩, ⟨some "a", .rxbyte, none⟩,
    .plain (.jmp (.num 1))]).isSome := by decide
/-- At 1843200 ticks a second the reference bit period is 16 ticks (rules R11, R13), 10 ms are 18432 and 1 µs is less
than 2 ticks and more than 1. -/
theorem test_reference : (Cfg.tp.withReference .source).tBit = 16 ∧ (Cfg.tp.withReference .source).tProcMin = 18432 ∧
    (Cfg.tp.withReference .source).tStrobeMin = 2 := by decide

/-! ### One step of each operation -/

/-- V-G1. -/
theorem test_pinout : next (exec (.pinout 0 false) State.reset) fun t =>
    t.trace == [.dir 0 .output 0, .write 0 false 0] && t.dir.read 0 == some .output && t.out.read 0 == some false &&
    t.pc == 1 && t.now == 0 := by decide
/-- V-G3: the latch is kept while the pin is an input. -/
theorem test_pinin : next (exec (.pinin 6) pinsReady) fun t =>
    t.trace == [.dir 6 .input 0] && t.dir.read 6 == some .input && t.out.read 6 == some false := by decide
/-- V-G4, its longest delay. -/
theorem test_delay : next (exec (.delay .pause) pinsReady) fun t => t.now == 500 && t.pc == 7 && t.trace == [] := by
  decide
/-- V-L6. -/
theorem test_lcdcmd1 : next (exec (.lcdcmd1 0x2F) pinsReady) fun t =>
    strobes t == [(false, 2, 0, 2, true)] && t.now == 52 := by decide
/-- V-L7. -/
theorem test_lcdcmd1_low : next (exec (.lcdcmd1 0x2F)
    { pinsReady with params := { Params.tp with cfg := { Cfg.tp with oneshotHalf := .low } } }) fun t =>
    strobes t == [(false, 15, 0, 2, true)] := by decide
/-- E1, the whole trace. -/
theorem test_lcdcmd : next (exec (.lcdcmd 0x28) pinsReady) fun t => t.trace ==
    [.write 0 false 0, .write 7 false 0, .write 6 false 0, .write 5 true 0, .write 4 false 0,
     .write 1 true 0, .write 1 false 2, .strobe false 2 0 2 true,
     .write 7 true 52, .write 6 false 52, .write 5 false 52, .write 4 false 52,
     .write 1 true 52, .write 1 false 54, .strobe false 8 52 54 true] && t.now == 104 && t.pc == 7 := by decide
/-- V-G7: E left high. -/
theorem test_lcdcmd_e_high : next (exec (.lcdcmd 0x28) { pinsReady with out := pinsReady.out.write 1 (some true) })
    fun t => strobes t == [(false, 2, 0, 2, false), (false, 8, 52, 54, true)] && t.fault == none := by decide
/-- V-L3. -/
theorem test_lcdchr : next (exec (.lcdchr 0x41) pinsReady) fun t =>
    strobes t == [(true, 4, 0, 2, true), (true, 1, 52, 54, true)] := by decide
/-- V-G6: the direction check. -/
theorem test_lcdchr_dir : next (exec (.lcdchr 0x41) (on { pinsReady with
    pc := 0, dir := pinsReady.dir.write 6 (some .input) } [0x6041])) fun t =>
    t.fault == some ⟨.dirOut, 0, 0x6041⟩ && t.trace == [] := by decide
/-- V-L18: `rxd` stays. -/
theorem test_lcdchrr : next (exec .lcdchrr { pinsReady with rxd := some 0x58 }) fun t =>
    strobes t == [(true, 5, 0, 2, true), (true, 8, 52, 54, true)] && t.rxd == some 0x58 := by decide
/-- V-F1: `F_UNWRITTEN` before `F_DIR_OUT`. -/
theorem test_lcdchrr_unwritten : next (exec .lcdchrr (on State.reset [0x7000])) fun t =>
    t.fault == some ⟨.unwritten, 0, 0x7000⟩ := by decide
/-- V-L10. -/
theorem test_lcdstr : next (exec (.lcdstr 0x10) (on pinsReady [0x8010] [(0x10, 0x41), (0x11, 0x42)])) fun t =>
    strobes t == [(true, 4, 0, 2, true), (true, 1, 52, 54, true), (true, 4, 104, 106, true), (true, 2, 156, 158, true)]
    && t.now == 208 && t.fault == none := by decide
/-- V-L14: off the end of ROM. -/
theorem test_lcdstr_off_rom : next (exec (.lcdstr 0xFE)
    (on { pinsReady with pc := 0 } [0x80FE] [(0xFE, 0x41), (0xFF, 0x42)])) fun t =>
    (strobes t).length == 4 && t.fault == some ⟨.romRange, 0, 0x80FE⟩ && t.now == 208 && t.pc == 0 := by decide
/-- E2. -/
theorem test_lcdinit : next (exec .lcdinit pinsReady) fun t =>
    (strobes t).map (fun r => (r.2.1, r.2.2.1)) == [(3, 100), (3, 152), (3, 204), (2, 256), (2, 308), (8, 360), (0, 412),
      (12, 464), (0, 516), (6, 568)] && t.now == 620 := by decide +kernel
/-- V-R18, the entry. -/
theorem test_rxbyte : next (exec .rxbyte { State.reset with rxd := some 1 }) fun t =>
    t.rxs == .hunt && t.rxd == none && t.pc == 0 && t.now == 0 && t.trace == [] := by decide
/-- V-G2. -/
theorem test_rxbyte_dir : next (exec .rxbyte (on { State.reset with
    dir := State.reset.dir.write 2 (some .output) } [0xA000])) fun t => t.fault == some ⟨.dirIn, 0, 0xA000⟩ := by decide
/-- V-R1: the poll at tick 100 finds the start bit; sampling begins at 124. -/
theorem test_hunt : next (step (hunting 100 (Waveform.frame 100 16 0x41))) fun t =>
    t.rxs == .sample && t.now == 124 && t.trace == [.read 2 false 100] := by decide
/-- V-R4, its last sample: bit 7 completes the byte. -/
theorem test_last_sample : next (step { sampling 7 with now := 236 }) fun t =>
    t.rxd == some 0xC1 && t.now == 260 && t.pc == 1 && t.rxs == .none := by decide
/-- V-C4: no fault at the jump. -/
theorem test_jmp : next (exec (.jmp 5) State.reset) fun t => t.pc == 5 && t.fault == none && t.now == 0 := by decide
/-- V-C2: the fault is at the next fetch. -/
theorem test_pc_range : next (step { on State.reset [0xB005] with pc := 5 }) fun t =>
    t.fault == some ⟨.pcRange, 5, 0⟩ := by decide
/-- V-D2, one word. -/
theorem test_illegal : next (step (on State.reset [0xF123])) fun t =>
    t == { on State.reset [0xF123] with fault := some ⟨.illegal, 0, 0xF123⟩ } := by decide
/-- Frame levels of rule R93: 0x41 from tick 100. -/
theorem test_frame : [99, 100, 115, 116, 132, 212, 228, 244, 260].map (Waveform.frame 100 16 0x41).level =
    [true, false, false, true, false, true, false, true, true] := by decide
/-- The halt idiom ends a run (rule R198). -/
theorem test_ended : (on State.reset [0xB000]).ended = true ∧ (on State.reset [0xB001]).ended = false := by decide

/-! ### Witnesses of the statements' hypotheses

Each names its statement. `step s = .next t` and the like hold by evaluation. -/

theorem witness_DecodeEncodeAgree : decode 0x5028 = .op (.lcdcmd 0x28) := by decide

theorem witness_DecodeFollowsOpcodeTable :
    (0x3500 : Word16) &&& 0xF0FF = 0x3000 ∧ (0x3500 : Word16).toNat / 256 % 16 ≤ 5 ∧
    (0x3600 : Word16) &&& 0xF0FF = 0x3000 ∧ ¬ (0x3600 : Word16).toNat / 256 % 16 ≤ 5 ∧
    ∀ r ∈ opcodeTable, r.value &&& r.mask = r.value := by decide

/-- One word for each condition, at its boundary. -/
theorem witness_IllegalWordsFault : (on State.reset [0x0000]).params.wf = true ∧
    (on State.reset [0x0000]).fault = none ∧ (on State.reset [0x0000]).rxs = .none ∧
    (on State.reset [0x0000]).params.prog[0]? = some 0 ∧
    [0x0FFF, 0xC000, 0x1800, 0x2800, 0x3600, 0x1002, 0x2001, 0x3001, 0x4100, 0xB100].all illegalWord := by decide

theorem witness_StepRunsDecodedOperation : State.reset.params.wf = true ∧ State.reset.fault = none ∧
    State.reset.rxs = .none ∧ State.reset.params.prog[State.reset.pc]? = some 0x1000 ∧
    decode 0x1000 = .op (.pinout 0 false) := by decide

/-- At the first index past the program. -/
theorem witness_FetchPastProgramFaults : ({ State.reset with pc := 16 } : State).params.wf = true ∧
    ({ State.reset with pc := 16 } : State).params.prog.length ≤ 16 ∧ State.reset.fault = none ∧
    State.reset.rxs = .none := by decide

theorem witness_RecordedFaultIsTerminal :
    ({ State.reset with fault := some ⟨.illegal, 0, 0⟩ } : State).params.wf = true := by decide

/-- A step to a recorded fault, for each code. -/
theorem witness_FaultsArePrecise_FaultsComeFromNamedOperations :
    (∀ c ∈ [(on State.reset [0xC000], FaultCode.illegal), ({ State.reset with pc := 16 }, FaultCode.pcRange),
        (on State.reset [0x5028], FaultCode.dirOut), (on pinsReady [0, 0, 0, 0, 0, 0, 0x7000], FaultCode.unwritten),
        (on { State.reset with dir := State.reset.dir.write 2 none } [0xA000], FaultCode.dirIn),
        (on { pinsReady with pc := 0 } [0x80FF] [(0xFF, 0x42)], FaultCode.romRange)],
      next (step c.1) fun t => t.fault.any fun r => r.code == c.2) := by decide

/-- `rxd` unwritten; a pin that is no output; both with `rxd` written. -/
theorem witness_LcdEntryChecks : State.reset.rxd = none ∧
    (∃ p ∈ lcdPins State.reset.params.cfg, State.reset.dir.read p ≠ some .output) ∧
    ({ State.reset with rxd := some 0 } : State).rxd ≠ none := by decide

/-- One step of each shape: an operation, an entry of `RXBYTE`, a poll, two samples, a fault. -/
theorem witness_PcUpdate :
    (next (step (hunting 100 (Waveform.frame 100 16 0x41))) fun t => t.pc == 0) ∧
    (next (step (sampling 6)) fun t => t.pc == 0) ∧ (next (step (sampling 7)) fun t => t.pc == 1) ∧
    (next (step (on State.reset [0xC000])) fun t => t.fault.isSome && t.pc == 0) ∧
    [0xB003, 0xA000, 0x3100].all (fun w =>
      next (step (on State.reset [w])) fun t => t.fault == none && (decodeTableWord 16 w.toNat).isSome) := by decide

/-- At the first index past the program. -/
theorem witness_JmpResult : State.reset.params.wf = true ∧ State.reset.fault = none ∧ State.reset.rxs = .none ∧
    State.reset.params.prog.length ≤ (0x10 : Byte).toNat := by decide

/-- At index 0, and at the last index a jump reaches. -/
theorem witness_HaltLoopsInPlace : (on State.reset [0xB000]).params.wf = true ∧ (on State.reset [0xB000]).ended = true ∧
    (on { State.reset with pc := 255 } (List.replicate 255 0 ++ [0xB0FF])).ended = true := by decide +kernel

/-- Where an LCD operation runs, with E low and with E high. -/
theorem witness_LcdReady : LcdReady pinsReady false ∧
    LcdReady { pinsReady with out := pinsReady.out.write 1 (some true) } true :=
  ⟨⟨by decide, by decide, by decide⟩, ⟨by decide, by decide, by decide⟩⟩

/-- The three forms of a two-nibble operation, `LCDCHRR` with the byte in `rxd`. -/
theorem witness_LcdByteOperationsSendTwoTransfers :
    LcdReady { pinsReady with rxd := some 0x58 } false ∧
    ({ pinsReady with rxd := some 0x58 } : State).rxd = some 0x58 :=
  ⟨⟨by decide, by decide, by decide⟩, rfl⟩

/-- An empty string; a string whose zero byte is the last byte of ROM. -/
theorem witness_LcdstrSendsString :
    LcdReady (on pinsReady [0x80FE] [(0xFE, 0x41)]) false ∧
    (romHolds [(0xFE, 0x41)] 0xFE [0x41] ∧ 0xFE + 1 < 256 ∧ Memory.read [(0xFE, 0x41)] 0xFF = 0) ∧
    (romHolds [(0xFE, 0x41)] 0x12 [] ∧ Memory.read [(0xFE, 0x41)] 0x12 = 0) := by
  refine ⟨⟨by decide, by decide, by decide⟩, ⟨⟨by decide, ?_⟩, by decide, by decide⟩, ⟨by decide, ?_⟩, by decide⟩
  · decide
  · decide

theorem witness_LcdstrRunsOffRom :
    LcdReady (on pinsReady [0x80FE] [(0xFE, 0x41), (0xFF, 0x42)]) false ∧
    romHolds [(0xFE, 0x41), (0xFF, 0x42)] 0xFE [0x41, 0x42] ∧ [(0x41 : Byte), 0x42].getLast? = some 0x42 := by
  refine ⟨⟨by decide, by decide, by decide⟩, ⟨by decide, ?_⟩, by decide⟩
  decide

theorem witness_LcdOperationsFrame : ∀ i ∈ [Instr.lcdchrr, .lcdinit, .lcdcmd1 1, .lcdcmd 1, .lcdchr 1, .lcdstr 1],
    (nextOf (exec i { pinsReady with rxd := some 1 })).isSome := by decide

theorem witness_RepeatedCommandSendsSameTransfers : LcdReady pinsReady false ∧
    next (exec (.lcdcmd 1) pinsReady) fun t => (nextOf (exec (.lcdcmd 1) t)).isSome :=
  ⟨⟨by decide, by decide, by decide⟩, by decide⟩

theorem witness_RxbyteEntry : State.reset.dir.read State.reset.params.cfg.pinRX = some .input ∧
    ({ State.reset with dir := Port.fill none } : State).dir.read State.reset.params.cfg.pinRX ≠ some .input := by decide

/-- A poll that reads 1 and a poll that reads 0. -/
theorem witness_HuntPoll : ∀ t ∈ [99, 100],
    (hunting t (Waveform.frame 100 16 0x41)).params.wf = true ∧ (hunting t (Waveform.frame 100 16 0x41)).fault = none ∧
    (hunting t (Waveform.frame 100 16 0x41)).rxs = .hunt ∧
    (hunting t (Waveform.frame 100 16 0x41)).rxLevel = decide (t = 99) := by decide

/-- The first and the last bit but one. -/
theorem witness_SampleDataBit : ∀ k ∈ [0, 6], (sampling k).params.wf = true ∧ (sampling k).fault = none ∧
    (sampling k).rxs = .sample ∧ (sampling k).rxk.val < 7 := by decide

theorem witness_LastSampleCompletes : (sampling 7).params.wf = true ∧ (sampling 7).fault = none ∧
    (sampling 7).rxs = .sample ∧ (sampling 7).rxk = 7 ∧
    (∀ k : Fin 8, k ≠ 7 → (sampling 7).acc.read k = some ((0xC1 : Byte).getLsbD k.val)) ∧
    (sampling 7).params.rxLine.level (sampling 7).now = (0xC1 : Byte).getLsbD 7 := by decide

theorem witness_IdleLineHuntsForEver : (hunting 0 Waveform.idle).params.wf = true ∧
    (hunting 0 Waveform.idle).fault = none ∧ (hunting 0 Waveform.idle).rxs = .hunt ∧
    ∀ j < 49, (hunting 0 Waveform.idle).params.rxLine.level
      ((hunting 0 Waveform.idle).now + j * (hunting 0 Waveform.idle).params.cfg.tPoll) = true := by decide

/-- An `RXBYTE` fetched five polls before the edge of a frame. -/
theorem witness_ReceiveSamplesTheLine :
    (on State.reset [0xA000] [] (Waveform.frame 5 16 0x41)).params.wf = true ∧
    (on State.reset [0xA000] [] (Waveform.frame 5 16 0x41)).params.prog[0]? = some (encode .rxbyte) ∧
    State.reset.fault = none ∧ State.reset.rxs = .none ∧ State.reset.pc = 0 ∧
    State.reset.dir.read State.reset.params.cfg.pinRX = some .input ∧
    (∀ j < 5, (Waveform.frame 5 16 0x41).level (0 + j * State.reset.params.cfg.tPoll) = true) ∧
    (Waveform.frame 5 16 0x41).level (0 + 5 * State.reset.params.cfg.tPoll) = false := by decide

/-- In the hunt at tick 0 with a poll interval. -/
def pollingEvery (d : Nat) : State :=
  { hunting 0 Waveform.idle with
    params := { (hunting 0 Waveform.idle).params with cfg := { Cfg.tp with tPoll := d } } }

/-- V-R12: latency 7 (poll interval 9, edge 101, 12 polls before it) receives, latency 8 (poll interval 12, edge 100,
9 polls before it) does not; both are in the start cell. -/
theorem witness_FrameReceivedIffSamplesInCells :
    ((pollingEvery 9).params.wf = true ∧ (pollingEvery 9).fault = none ∧ (pollingEvery 9).rxs = .hunt ∧
      (pollingEvery 9).now + 12 * (pollingEvery 9).params.cfg.tPoll = 101 + 7 ∧
      (∀ j < 12, (pollingEvery 9).now + j * (pollingEvery 9).params.cfg.tPoll < 101) ∧ 7 < 16) ∧
    ((pollingEvery 12).params.wf = true ∧ (pollingEvery 12).fault = none ∧ (pollingEvery 12).rxs = .hunt ∧
      (pollingEvery 12).now + 9 * (pollingEvery 12).params.cfg.tPoll = 100 + 8 ∧
      (∀ j < 9, (pollingEvery 12).now + j * (pollingEvery 12).params.cfg.tPoll < 100) ∧ 8 < 16) := by decide

/-- Two frames, the second right after the first (V-R16). -/
theorem witness_FrameWaveform : ([⟨100, 16, 0x41⟩, ⟨260, 16, 0x42⟩] : List SerialFrame).Pairwise
    (fun f g => f.edge + 10 * f.period ≤ g.edge) := by decide

/-- A step outside a receive and a micro-step. -/
theorem witness_OnlyMicroStepsSample : State.reset.rxs = .none ∧ (nextOf (step State.reset)).isSome ∧
    (sampling 0).rxs ≠ .none ∧ (nextOf (step (sampling 0))).isSome := by decide

theorem witness_ReceiverRegistersWritten : State.reset.rxs = .none ∧
    State.reset.params.prog[State.reset.pc]? ≠ some (encode .rxbyte) ∧ (nextOf (step State.reset)).isSome ∧
    (sampling 7).rxs ≠ .none ∧ next (step (sampling 7)) fun t => t.rxd != (sampling 7).rxd := by decide

/-- A direction changed by `PINOUT` and one changed by `PININ`. -/
theorem witness_DirectionWritten :
    (next (step (on State.reset [0x1000])) fun t => t.dir.read 0 != State.reset.dir.read 0) ∧
    (next (step (on State.reset [0x2000])) fun t => t.dir.read 0 != State.reset.dir.read 0) := by decide

/-- Steps of the four operations that take no time. -/
theorem witness_TimeNeverGoesBack : ∀ i ∈ [Instr.rxbyte, .pinout 0 true, .pinin 0, .jmp 3],
    (nextOf (exec i State.reset)).isSome := by decide

/-- A state that meets the invariants, and a step from it. -/
theorem witness_invariants : Coherent pinsReady ∧ TimeOrdered pinsReady ∧ StrobeTimed pinsReady ∧
    EdgesRise pinsReady ∧ keepsELow pinsReady ∧ pinsReady.params.wf = true ∧ pinsReady.fault = none ∧
    (nextOf (step pinsReady)).isSome := by
  refine ⟨?_, ⟨by decide, by decide⟩, ⟨by decide, by decide, by decide⟩, ⟨by decide, by decide⟩, ?_, by decide,
    by decide, by decide⟩
  · exact ⟨by decide, by decide, by decide, by decide, by decide, by decide, by decide, by intro r h; cases h⟩
  · unfold keepsELow; decide

theorem witness_RunsFollowLcdProtocol : Params.tp.cfg.tStrobeMin ≤ Params.tp.cfg.tStrobe ∧
    Params.tp.cfg.tProcMin ≤ Params.tp.cfg.tProc ∧
    encode (.pinout Params.tp.cfg.pinE true) ∉ Params.tp.prog ∧
    (nextOf (runFor 7 (State.powerOn Params.tp))).isSome := by decide

/-- At both ends of ROM. -/
theorem witness_PlacedByteReadsBack : Memory.wf [(0, 1), (255, 2)] = true ∧
    ∀ a ∈ [0, 255], (Memory.store [(0, 1), (255, 2)] a 7).read a = 7 := by decide

/-- A label that fits and one that runs into the top of ROM. -/
theorem witness_LabelRomHoldsLabel : (0x00 : Byte).toNat + 16 < 256 ∧ (0xFF : Byte).toNat + 0 < 256 ∧
    (labelRom 0xFF).read 0xFF = 0x43 := by decide

/-- The longest program and one word more; a bit time of 1 and of 0. -/
theorem witness_LaunchTakesWellFormedOnly :
    ({ Params.tp with prog := List.replicate 256 0xB000, cfg := { Cfg.tp with tBit := 1 } } : Params).wf = true ∧
    ({ Params.tp with prog := List.replicate 257 0xB000 } : Params).wf = false ∧
    ({ Params.tp with cfg := { Cfg.tp with tBit := 0 } } : Params).wf = false := by decide +kernel

/-- A load where the next fetch is, one past the end of the program, and one where `pc` is out of reach. -/
theorem witness_LoadedWordRunsNext : State.reset.params.wf = true ∧ decode (BitVec.ofNat 16 0x5028) = .op (.lcdcmd 0x28) ∧
    (State.reset.withFetchWord 16 0x5028).fetchWord = some 0x5028 ∧
    ({ State.reset with pc := 20 }.withFetchWord 16 0x5028).params.prog[19]? = some 0 ∧
    ({ State.reset with pc := 20 }.withFetchWord 16 0x5028).fetchWord = some 0x5028 ∧
    ({ State.reset with pc := 300 }.withFetchWord 16 0x5028).fetchWord = some 0x5028 := by decide

end Sys2Proof.Tests
end

section
/-! PROOFS. What every step keeps of the state record (10_state.md rules R43, R45, R47): the parameters of the run and the events already in the trace. -/

namespace Sys2Proof.Machine

/-- `t` comes after `s` in a run, as far as rules R43 and R47 say: the same parameters, and a trace that goes on from
that of `s`. -/
structure Extends (s t : State) : Prop where
  params_eq : t.params = s.params
  trace_prefix : s.trace <+: t.trace

theorem Extends.refl (s : State) : Extends s s := ⟨rfl, List.prefix_rfl⟩

theorem Extends.trans {s t u : State} (h1 : Extends s t) (h2 : Extends t u) : Extends s u :=
  ⟨h2.params_eq.trans h1.params_eq, h1.trace_prefix.trans h2.trace_prefix⟩

/-! ### The named operations -/

theorem extends_pinWrite (s : State) (p : PortBit) (v : Bit) : Extends s (s.pinWrite p v) :=
  ⟨rfl, List.prefix_append _ _⟩

theorem extends_pinDir (s : State) (p : PortBit) (d : Direction) : Extends s (s.pinDir p d) :=
  ⟨rfl, List.prefix_append _ _⟩

theorem extends_pinRead (s : State) (p : PortBit) : Extends s (s.pinRead p) :=
  ⟨rfl, List.prefix_append _ _⟩

theorem extends_sampleBit (s : State) : Extends s s.sampleBit :=
  ⟨rfl, List.prefix_append _ _⟩

theorem extends_delay (s : State) (d : Nat) : Extends s (s.delay d) := ⟨rfl, List.prefix_rfl⟩

theorem extends_advance (s : State) : Extends s s.advance := ⟨rfl, List.prefix_rfl⟩

theorem extends_jumpTo (s : State) (a : Nat) : Extends s (s.jumpTo a) := ⟨rfl, List.prefix_rfl⟩

theorem extends_raiseFault (s : State) (c : FaultCode) (info : Nat) : Extends s (s.raiseFault c info) :=
  ⟨rfl, List.prefix_rfl⟩

/-- The receiver's registers are no part of what `Extends` speaks of. -/
theorem Extends.withReceiver {s t : State} (h : Extends s t) (rxd : Option Byte) (rxs : RxState) (rxk : Fin 8)
    (acc : Port (Option Bit)) : Extends s { t with rxd := rxd, rxs := rxs, rxk := rxk, acc := acc } :=
  ⟨h.params_eq, h.trace_prefix⟩

/-! ### The LCD operations -/

theorem strobe_extends {s t : State} (h : strobe s = .next t) : Extends s t := by
  obtain ⟨e, rs, n, _, _, htrace, _, _, _, _, _, _, _, _, hparams⟩ := strobe_eq_next h
  exact ⟨hparams, htrace ▸ List.prefix_append _ _⟩

theorem busRun_extends {s t : State} (h : BusRun s t) : Extends s t := by
  induction h with
  | refl s => exact .refl s
  | write v _ _ _ ih => exact (extends_pinWrite _ _ v).trans ih
  | delay d _ ih => exact (extends_delay _ d).trans ih
  | strobe hs _ ih => exact (strobe_extends hs).trans ih

theorem lcdOutcome_extends {s t : State} (h : LcdOutcome s t) : Extends s t := by
  obtain ⟨p, _, rfl⟩ | ⟨_, u, hu, rfl | ⟨a, rfl⟩⟩ := h
  · exact extends_raiseFault s .dirOut p.val
  · exact (busRun_extends hu).trans (extends_advance u)
  · exact (busRun_extends hu).trans (extends_raiseFault u .romRange a)

/-! ### An operation, a receiver micro-step, a step -/

theorem exec_extends {i : Instr} {s t : State} (h : exec i s = .next t) : Extends s t := by
  obtain ⟨p, l, _, rfl⟩ | ⟨p, _, rfl⟩ | ⟨sel, _, rfl⟩ | ⟨_, hlcd⟩ | ⟨_, _, rfl⟩ | ⟨_, _, rfl⟩ | ⟨_, _, rfl⟩ |
    ⟨a, _, rfl⟩ := exec_next h
  · exact ((extends_pinDir s p .output).trans (extends_pinWrite _ p l)).trans (extends_advance _)
  · exact (extends_pinDir s p .input).trans (extends_advance _)
  · exact (extends_delay s _).trans (extends_advance _)
  · exact lcdOutcome_extends hlcd
  · exact extends_raiseFault s .unwritten 0
  · exact (Extends.refl s).withReceiver none .hunt s.rxk _
  · exact extends_raiseFault s .dirIn _
  · exact extends_jumpTo s _

theorem rxHunt_extends {s t : State} (h : rxHunt s = .next t) : Extends s t := by
  have hread := extends_pinRead s s.params.cfg.pinRX
  obtain ⟨_, rfl⟩ | ⟨_, rfl⟩ := rxHunt_next h
  · exact hread.trans (extends_delay _ _)
  · exact ((hread.trans (extends_delay _ _)).trans (extends_delay _ _)).withReceiver s.rxd .sample 0 s.acc

theorem rxSample_extends {s t : State} (h : rxSample s = .next t) : Extends s t := by
  have hbit := (extends_sampleBit s).trans (extends_delay _ s.params.cfg.tBit)
  obtain ⟨_, rfl⟩ | ⟨_, b, _, rfl⟩ := rxSample_next h
  · exact hbit.withReceiver s.rxd s.rxs (s.rxk + 1) _
  · exact ((hbit.trans (extends_delay _ _)).withReceiver (some b) .none s.rxk _).trans (extends_advance _)

/-- Every step that answers next extends the state it starts from. -/
theorem step_extends {s t : State} (h : step s = .next t) : Extends s t := by
  obtain ⟨_, _, ⟨_, hhunt⟩ | ⟨_, hsample⟩ | ⟨_, _, rfl⟩ | ⟨_, w, why, _, _, rfl⟩ | ⟨_, w, i, _, _, hexec⟩⟩ :=
    step_next h
  · exact rxHunt_extends hhunt
  · exact rxSample_extends hsample
  · exact extends_raiseFault s .pcRange s.pc
  · exact extends_raiseFault s .illegal w.toNat
  · exact exec_extends hexec

/-! ### Power-on -/

/-- The only direction written at power-on is that of RX (rule R45). -/
theorem powerOn_dir_read (p : Params) (q : PortBit) :
    (State.powerOn p).dir.read q = if q = p.cfg.pinRX then some .input else none := by
  show ((Port.fill none).write p.cfg.pinRX (some Direction.input)).read q = _
  rw [Port.read_write, Port.read_fill]

/-! ### The obligations -/

/-- Settles O36: every step extends its state. -/
theorem parametersNeverChange : Obligations.ParametersNeverChange :=
  fun _ _ h => (step_extends h).params_eq

/-- Settles O37: every step extends its state. -/
theorem traceOnlyGrows : Obligations.TraceOnlyGrows :=
  ⟨powerOn_trace, emit_trace, fun _ _ h => (step_extends h).trace_prefix⟩

/-- Settles O49: each row of rule R45's table. -/
theorem powerOnState : Obligations.PowerOnState := fun p =>
  ⟨rfl, rfl, Port.read_fill none, powerOn_dir_read p, rfl, powerOn_rxs p, rfl, Port.read_fill none, powerOn_trace p,
    powerOn_fault p, powerOn_params p⟩

end Sys2Proof.Machine
end

section
/-! PROOFS. The decoder and the opcode table (30_encoding.md rules R83, R86, R87): what the decoder's answer says of the word, and which words the rows of the table match. -/

namespace Sys2Proof

/-! ### Words and their fields -/

theorem wordOf_eq {w : Word16} {o a : BitVec 4} {m : Byte} (ho : opField w = o) (ha : aField w = a)
    (hm : immField w = m) : wordOf o a m = w := by
  rw [← ho, ← ha, ← hm, wordOf_fields]

theorem opField_and (v w : Word16) : opField (v &&& w) = opField v &&& opField w := BitVec.extractLsb'_and

theorem aField_and (v w : Word16) : aField (v &&& w) = aField v &&& aField w := BitVec.extractLsb'_and

theorem immField_and (v w : Word16) : immField (v &&& w) = immField v &&& immField w := BitVec.extractLsb'_and

/-- A match under a mask that fixes the operation code is a match field by field. -/
theorem fields_of_masked {w : Word16} {a o' a' : BitVec 4} {m m' : Byte}
    (h : w &&& wordOf 0xF a m = wordOf o' a' m') :
    opField w = o' ∧ aField w &&& a = a' ∧ immField w &&& m = m' := by
  have ho := congrArg opField h
  have ha := congrArg aField h
  have hm := congrArg immField h
  rw [opField_and, opField_wordOf, opField_wordOf] at ho
  rw [aField_and, aField_wordOf, aField_wordOf] at ha
  rw [immField_and, immField_wordOf, immField_wordOf] at hm
  exact ⟨(BitVec.and_allOnes (x := opField w)).symm.trans ho, ha, hm⟩

/-- A match under a mask that leaves only `imm8` free. -/
theorem wordOf_eq_of_masked_imm {w : Word16} {o : BitVec 4} (h : w &&& wordOf 0xF 0xF 0 = wordOf o 0 0) :
    wordOf o 0 (immField w) = w := by
  obtain ⟨ho, ha, _⟩ := fields_of_masked h
  exact wordOf_eq ho (BitVec.and_allOnes.symm.trans ha) rfl

/-- A match under a mask that fixes every bit. -/
theorem eq_of_masked_all {w v : Word16} (h : w &&& 0xFFFF = v) : v = w :=
  h.symm.trans BitVec.and_allOnes

/-! ### Operand fields -/

/-- A field without its top bit is a port bit (rule R82). -/
theorem exists_portBit_of_masked : ∀ a : BitVec 4, a &&& 0x8 = 0 → ∃ p : PortBit, BitVec.ofNat 4 p.val = a := by
  decide

theorem selectorNumber_of_selectorOf :
    ∀ (a : BitVec 4) (s : Selector), selectorOf a = some s → selectorNumber s = a := by decide

/-- No selector has a number from 6 on (rule R85). -/
theorem le_of_selectorOf_eq_none : ∀ a : BitVec 4, selectorOf a = none → 6 ≤ a.toNat := by
  decide

/-- A selector field up to 5 is the number of a selector (rule R85). -/
theorem exists_selector_of_le : ∀ a : BitVec 4, a.toNat ≤ 5 → ∃ s : Selector, selectorNumber s = a := by
  intro a h
  cases hs : selectorOf a with
  | some s => exact ⟨s, selectorNumber_of_selectorOf a s hs⟩
  | none => exact absurd (le_of_selectorOf_eq_none a hs) (by omega)

/-- A byte whose bits 7:1 are 0 is the level in its bit 0 (rule R84). -/
theorem level_of_masked : ∀ m : Byte, m &&& 0xFE = 0 → (if m.getLsbD 0 then 1 else 0 : Byte) = m := by
  decide

theorem level_of_lt_two : ∀ m : Byte, m.toNat < 2 → (if m.getLsbD 0 then 1 else 0 : Byte) = m := by
  decide

/-! ### The decoder's answer -/

/-- The model's check of legality is the four bullets of rule R86. -/
theorem illegalWord_iff (w : Word16) : illegalWord w = true ↔
    ((w.toNat / 4096 = 0 ∨ 12 ≤ w.toNat / 4096) ∨
     ((w.toNat / 4096 = 1 ∨ w.toNat / 4096 = 2) ∧ 8 ≤ w.toNat / 256 % 16) ∨
     (w.toNat / 4096 = 3 ∧ 6 ≤ w.toNat / 256 % 16) ∨
     ((w.toNat / 4096 = 1 ∧ w.toNat % 256 / 2 ≠ 0) ∨
      (w.toNat / 4096 ∈ [2, 3, 7, 9, 10] ∧ w.toNat % 256 ≠ 0) ∨
      (w.toNat / 4096 ∈ [4, 5, 6, 7, 8, 9, 10, 11] ∧ w.toNat / 256 % 16 ≠ 0))) := by
  simp only [illegalWord, badOpcode, badPortBit, badSelector, badUnused, wordOp, wordA, wordImm, Bool.or_eq_true,
    Bool.and_eq_true, beq_iff_eq, decide_eq_true_eq, List.mem_cons, List.not_mem_nil, or_false]
  omega

/-- The bullets of rule R86 on the decoder's fields. -/
theorem illegalWord_iff_fields (w : Word16) : illegalWord w = true ↔
    (((opField w).toNat = 0 ∨ 12 ≤ (opField w).toNat) ∨
     (((opField w).toNat = 1 ∨ (opField w).toNat = 2) ∧ 8 ≤ (aField w).toNat) ∨
     ((opField w).toNat = 3 ∧ 6 ≤ (aField w).toNat) ∨
     (((opField w).toNat = 1 ∧ (immField w).toNat / 2 ≠ 0) ∨
      ((opField w).toNat ∈ [2, 3, 7, 9, 10] ∧ (immField w).toNat ≠ 0) ∨
      ((opField w).toNat ∈ [4, 5, 6, 7, 8, 9, 10, 11] ∧ (aField w).toNat ≠ 0))) := by
  rw [opField_toNat, aField_toNat, immField_toNat]
  exact illegalWord_iff w

theorem illegalWord_of_opcode {w : Word16} (h : (opField w).toNat = 0 ∨ 12 ≤ (opField w).toNat) :
    illegalWord w = true := (illegalWord_iff_fields w).mpr (.inl h)

theorem illegalWord_of_portBit {w : Word16} (hop : (opField w).toNat = 1 ∨ (opField w).toNat = 2)
    (h : 8 ≤ (aField w).toNat) : illegalWord w = true := (illegalWord_iff_fields w).mpr (.inr (.inl ⟨hop, h⟩))

theorem illegalWord_of_selector {w : Word16} (hop : (opField w).toNat = 3) (h : 6 ≤ (aField w).toNat) :
    illegalWord w = true := (illegalWord_iff_fields w).mpr (.inr (.inr (.inl ⟨hop, h⟩)))

theorem illegalWord_of_level {w : Word16} (hop : (opField w).toNat = 1) (h : (immField w).toNat / 2 ≠ 0) :
    illegalWord w = true := (illegalWord_iff_fields w).mpr (.inr (.inr (.inr (.inl ⟨hop, h⟩))))

theorem illegalWord_of_imm {w : Word16} (hop : (opField w).toNat ∈ [2, 3, 7, 9, 10]) (h : immField w ≠ 0) :
    illegalWord w = true :=
  (illegalWord_iff_fields w).mpr (.inr (.inr (.inr (.inr (.inl ⟨hop, fun h0 => h (BitVec.eq_of_toNat_eq h0)⟩)))))

theorem illegalWord_of_a {w : Word16} (hop : (opField w).toNat ∈ [4, 5, 6, 7, 8, 9, 10, 11]) (h : aField w ≠ 0) :
    illegalWord w = true :=
  (illegalWord_iff_fields w).mpr (.inr (.inr (.inr (.inr (.inr ⟨hop, fun h0 => h (BitVec.eq_of_toNat_eq h0)⟩)))))

/-- What an answer of the decoder says of the word: it is the word of the operation, or it is illegal (R86, R87). -/
def Decoded.Fits (w : Word16) : Decoded → Prop
  | .op i => encode i = w
  | .illegal _ => illegalWord w = true

theorem withZeroA_fits {w : Word16} {i : Instr} {k : Nat} (hop : (opField w).toNat = k)
    (h : aField w = 0 → encode i = w) (hk : k ∈ [4, 5, 6, 7, 8, 9, 10, 11] := by decide) :
    (withZeroA w i).Fits w := by
  unfold withZeroA
  split
  · next ha => exact h ha
  · next ha => exact illegalWord_of_a (hop ▸ hk) ha

theorem withZeroImm_fits {w : Word16} {d : Decoded} {k : Nat} (hop : (opField w).toNat = k)
    (h : immField w = 0 → d.Fits w) (hk : k ∈ [2, 3, 7, 9, 10] := by decide) : (withZeroImm w d).Fits w := by
  unfold withZeroImm
  split
  · next hm => exact h hm
  · next hm => exact illegalWord_of_imm (hop ▸ hk) hm

theorem withPortBit_fits {w : Word16} {f : PortBit → Decoded} {k : Nat} (hop : (opField w).toNat = k)
    (h : ∀ p : PortBit, BitVec.ofNat 4 p.val = aField w → (f p).Fits w) (hk : k = 1 ∨ k = 2 := by decide) :
    (withPortBit w f).Fits w := by
  unfold withPortBit portBitOf
  by_cases hp : (aField w).toNat < 8
  · rw [dif_pos hp]
    exact h _ (BitVec.ofNat_toNat 4 (aField w))
  · rw [dif_neg hp]
    exact illegalWord_of_portBit (hop ▸ hk) (Nat.not_lt.mp hp)

/-- Each answer of the decoder fits its word (rules R86, R87). -/
theorem decode_fits (w : Word16) : (decode w).Fits w := by
  unfold decode
  split
  case h_1 h =>
    refine withPortBit_fits h fun p hp => ?_
    split
    · next hm => exact wordOf_eq (BitVec.eq_of_toNat_eq h) hp.symm (level_of_lt_two _ hm).symm
    · next hm => exact illegalWord_of_level h (by omega)
  case h_2 h =>
    exact withPortBit_fits h fun p hp => withZeroImm_fits h fun hm =>
      wordOf_eq (BitVec.eq_of_toNat_eq h) hp.symm hm
  case h_3 h =>
    split
    · next s hs =>
      exact withZeroImm_fits h fun hm =>
        wordOf_eq (BitVec.eq_of_toNat_eq h) (selectorNumber_of_selectorOf _ s hs).symm hm
    · next hs => exact illegalWord_of_selector h (le_of_selectorOf_eq_none _ hs)
  case h_4 h | h_5 h | h_6 h | h_8 h | h_11 h =>
    exact withZeroA_fits h fun ha => wordOf_eq (BitVec.eq_of_toNat_eq h) ha rfl
  case h_7 h | h_9 h | h_10 h =>
    exact withZeroImm_fits h fun hm => withZeroA_fits h fun ha => wordOf_eq (BitVec.eq_of_toNat_eq h) ha hm
  case h_12 =>
    simp only [imp_false] at *
    exact illegalWord_of_opcode (by omega)

/-- An operation has no second word (rule R83). -/
theorem encode_of_decode {w : Word16} {i : Instr} (h : decode w = .op i) : encode i = w := by
  have hfits := decode_fits w
  rwa [h] at hfits

/-- The word of an operation matches the operation's own row of the opcode table and is legal. -/
theorem encodesInRow (i : Instr) : Laws.EncodesInRow.Statement i :=
  match i with
  | .pinout p l => Laws.EncodesInRow.pinout p l
  | .pinin p => Laws.EncodesInRow.pinin p
  | .delay s => Laws.EncodesInRow.delay s
  | .lcdcmd1 b => Laws.EncodesInRow.lcdcmd1 b
  | .lcdcmd b => Laws.EncodesInRow.lcdcmd b
  | .lcdchr b => Laws.EncodesInRow.lcdchr b
  | .lcdchrr => Laws.EncodesInRow.lcdchrr
  | .lcdstr a => Laws.EncodesInRow.lcdstr a
  | .lcdinit => Laws.EncodesInRow.lcdinit
  | .rxbyte => Laws.EncodesInRow.rxbyte
  | .jmp t => Laws.EncodesInRow.jmp t

/-- The word of an operation is legal. -/
theorem illegalWord_encode (i : Instr) : illegalWord (encode i) = false := by
  obtain ⟨_, _, hlegal⟩ := encodesInRow i
  exact hlegal

/-- The words the decoder refuses are the illegal ones (rule R86). -/
theorem decode_illegal_iff (w : Word16) : (∃ why, decode w = .illegal why) ↔ illegalWord w = true := by
  have hfits := decode_fits w
  cases hd : decode w with
  | op i =>
    rw [← encode_of_decode hd, illegalWord_encode]
    simp
  | illegal why =>
    rw [hd] at hfits
    exact ⟨fun _ => hfits, fun _ => ⟨why, rfl⟩⟩

/-- The words the decoder takes are the words of the operations (rules R83, R87). -/
theorem decode_op_iff (w : Word16) : (∃ i, decode w = .op i) ↔ ∃ i, encode i = w := by
  refine ⟨fun ⟨i, h⟩ => ⟨i, encode_of_decode h⟩, fun ⟨i, h⟩ => ?_⟩
  cases hd : decode w with
  | op j => exact ⟨j, rfl⟩
  | illegal why =>
    have hillegal := (decode_illegal_iff w).mp ⟨why, hd⟩
    rw [← h, illegalWord_encode] at hillegal
    cases hillegal

/-! ### The rows of the opcode table -/

/-- A word that matches a row, with its selector in 0..5 in the row of `DELAY`, is the word of an operation. -/
theorem exists_encode_of_row {w : Word16} {r : OpRow} (hr : r ∈ opcodeTable) (h : w &&& r.mask = r.value)
    (hsel : r.value = 0x3000 → w.toNat / 256 % 16 ≤ 5) : ∃ i, encode i = w := by
  simp only [opcodeTable, List.mem_cons, List.not_mem_nil, or_false] at hr
  obtain rfl | rfl | rfl | rfl | rfl | rfl | rfl | rfl | rfl | rfl | rfl := hr
  · obtain ⟨ho, ha, hm⟩ := fields_of_masked (a := 0x8) (m := 0xFE) (o' := 0x1) (a' := 0) (m' := 0) h
    obtain ⟨p, hp⟩ := exists_portBit_of_masked _ ha
    exact ⟨.pinout p _, wordOf_eq ho hp.symm (level_of_masked _ hm).symm⟩
  · obtain ⟨ho, ha, hm⟩ := fields_of_masked (a := 0x8) (m := 0xFF) (o' := 0x2) (a' := 0) (m' := 0) h
    obtain ⟨p, hp⟩ := exists_portBit_of_masked _ ha
    exact ⟨.pinin p, wordOf_eq ho hp.symm (BitVec.and_allOnes.symm.trans hm)⟩
  · obtain ⟨ho, _, hm⟩ := fields_of_masked (a := 0) (m := 0xFF) (o' := 0x3) (a' := 0) (m' := 0) h
    obtain ⟨s, hs⟩ := exists_selector_of_le (aField w) ((aField_toNat w).trans_le (hsel rfl))
    exact ⟨.delay s, wordOf_eq ho hs.symm (BitVec.and_allOnes.symm.trans hm)⟩
  · exact ⟨.lcdcmd1 _, wordOf_eq_of_masked_imm h⟩
  · exact ⟨.lcdcmd _, wordOf_eq_of_masked_imm h⟩
  · exact ⟨.lcdchr _, wordOf_eq_of_masked_imm h⟩
  · exact ⟨.lcdchrr, eq_of_masked_all h⟩
  · exact ⟨.lcdstr _, wordOf_eq_of_masked_imm h⟩
  · exact ⟨.lcdinit, eq_of_masked_all h⟩
  · exact ⟨.rxbyte, eq_of_masked_all h⟩
  · exact ⟨.jmp _, wordOf_eq_of_masked_imm h⟩

/-- A word that decodes matches the row of its operation. -/
theorem masked_of_decode {w : Word16} {i : Instr} (h : decode w = .op i) :
    w &&& (rowOf i).mask = (rowOf i).value := by
  obtain ⟨hhits, _, _⟩ := encodesInRow i
  rw [encode_of_decode h] at hhits
  exact beq_iff_eq.mp hhits

/-- The word of an operation in the row of `DELAY` has its selector in 0..5. -/
theorem selector_le_of_delayRow {i : Instr} (h : (rowOf i).value = 0x3000) : (encode i).toNat / 256 % 16 ≤ 5 := by
  cases i with
  | delay s => cases s <;> decide
  | _ => exact absurd h (by simp [rowOf])

theorem opField_mask_of_row : ∀ r ∈ opcodeTable, opField r.mask = 0xF := by decide

/-- No two rows have one operation code (rule R84). -/
theorem row_eq_of_opField_eq :
    ∀ r ∈ opcodeTable, ∀ r' ∈ opcodeTable, opField r.value = opField r'.value → r = r' := by decide

theorem opField_of_row {w : Word16} {r : OpRow} (hr : r ∈ opcodeTable) (h : w &&& r.mask = r.value) :
    opField w = opField r.value := by
  rw [← h, opField_and, opField_mask_of_row r hr]
  exact BitVec.and_allOnes.symm

end Sys2Proof

namespace Sys2Proof.Machine

/-! ### The fetch -/

/-- With nothing in the way, a step runs the word at `pc` (43_control.md rule R190). -/
theorem step_eq_runWord {s : State} {w : Word16} (hw : s.params.wf = true) (hf : s.fault = none)
    (hr : s.rxs = .none) (hfw : s.params.prog[s.pc]? = some w) : step s = runWord w s := by
  simp only [step, hw, hf, runSequencer, hr, fetchAndRun, State.fetchWord, hfw, if_true]

theorem runWord_illegal {s : State} {w : Word16} {why : IllegalWord} (hd : decode w = .illegal why) :
    runWord w s = .next (s.raiseFault .illegal w.toNat) := by
  simp only [runWord, hd]

theorem raiseFault_illegal {s : State} {w : Word16} (hfw : s.params.prog[s.pc]? = some w) (info : Nat) :
    s.raiseFault .illegal info = { s with fault := some ⟨.illegal, s.pc, w⟩ } := by
  simp [State.raiseFault, State.faultWord, State.fetchWord, hfw]

/-! ### The obligations -/

/-- Settles O2: a word decodes exactly when it is the word of an operation, and that word matches the operation's row. -/
theorem decodeFollowsOpcodeTable : Obligations.DecodeFollowsOpcodeTable := by
  intro w
  refine ⟨⟨fun ⟨i, hi⟩ => ?_, fun ⟨r, hr, hm, hsel⟩ => ?_⟩, fun _ => masked_of_decode, fun r hr r' hr' hm hm' => ?_⟩
  · obtain ⟨_, htable, _⟩ := encodesInRow i
    refine ⟨rowOf i, htable, masked_of_decode hi, fun hv => ?_⟩
    rw [← encode_of_decode hi]
    exact selector_le_of_delayRow hv
  · exact (decode_op_iff w).mpr (exists_encode_of_row hr hm hsel)
  · exact row_eq_of_opField_eq r hr r' hr' ((opField_of_row hr hm).symm.trans (opField_of_row hr' hm'))

/-- Settles O3: the decoder's refusals are the four bullets, and a refused word is a fault at its fetch. -/
theorem illegalWordsFault : Obligations.IllegalWordsFault := by
  refine ⟨fun w => (decode_illegal_iff w).trans (illegalWord_iff w), ?_, .opcode, by decide⟩
  intro s w hw hf hr hfw ⟨why, hd⟩
  rw [step_eq_runWord hw hf hr hfw, runWord_illegal hd, raiseFault_illegal hfw]

end Sys2Proof.Machine
end

section
/-! PROOFS. The waveform of serial frames (30_encoding.md rule R93): the levels of one frame's cells, then of several frames in rising order. -/

namespace Sys2Proof

/-! ### Segments of a script -/

theorem segLevel_cons_of_lt {d t : Nat} (v : Bit) (rest : List (Nat × Bit)) (h : t < d) :
    segLevel ((d, v) :: rest) t = some v := if_pos h

theorem segLevel_cons_of_le {d t : Nat} (v : Bit) (rest : List (Nat × Bit)) (h : d ≤ t) :
    segLevel ((d, v) :: rest) t = segLevel rest (t - d) := if_neg (Nat.not_lt.mpr h)

/-- Cells of one length, while they last: the level is that of the cell the tick is in. -/
theorem segLevel_cells_of_lt {p : Nat} (rest : List (Nat × Bit)) :
    ∀ {vs : List Bit} {t : Nat}, t < vs.length * p →
      segLevel (vs.map (Prod.mk p) ++ rest) t = vs[t / p]?
  | [], t, h => by simp at h
  | v :: vs, t, h => by
    rw [List.map_cons, List.cons_append]
    rcases Nat.lt_or_ge t p with hlt | hge
    · rw [segLevel_cons_of_lt v _ hlt, Nat.div_eq_of_lt hlt, List.getElem?_cons_zero]
    · have hp : 0 < p := Nat.pos_of_ne_zero fun h0 => by simp [h0] at h
      have hvs : t - p < vs.length * p := by
        rw [List.length_cons, Nat.succ_mul] at h
        omega
      rw [segLevel_cons_of_le v _ hge, segLevel_cells_of_lt rest hvs, Nat.div_eq_sub_div hp hge,
        List.getElem?_cons_succ]

/-- Cells of one length, once they are over. -/
theorem segLevel_cells_of_le {p : Nat} (rest : List (Nat × Bit)) :
    ∀ {vs : List Bit} {t : Nat}, vs.length * p ≤ t →
      segLevel (vs.map (Prod.mk p) ++ rest) t = segLevel rest (t - vs.length * p)
  | [], t, _ => by simp
  | v :: vs, t, h => by
    rw [List.length_cons, Nat.succ_mul] at h ⊢
    rw [List.map_cons, List.cons_append, segLevel_cons_of_le v _ (by omega), segLevel_cells_of_le rest (by omega)]
    congr 1
    omega

/-! ### One frame -/

/-- The levels of cells 0..8 of a frame: the start bit, then the data bits, least significant first (rule R93). -/
def SerialFrame.levels (f : SerialFrame) : List Bit := false :: (List.range 8).map f.byte.getLsbD

theorem SerialFrame.cells_eq (f : SerialFrame) : f.cells = f.levels.map (Prod.mk f.period) := rfl

theorem SerialFrame.length_levels (f : SerialFrame) : f.levels.length = 9 := rfl

/-- The level of a frame at a tick, as rule R93 tabulates it. -/
def SerialFrame.level (f : SerialFrame) (t : Nat) : Bit := Machine.frameLevel f.edge f.period f.byte t

theorem SerialFrame.level_of_lt_edge {f : SerialFrame} {t : Nat} (h : t < f.edge) : f.level t = true := if_pos h

/-- From its stop cell on, a frame is idle. -/
theorem SerialFrame.level_of_cells_le {f : SerialFrame} {t : Nat} (h : f.edge + 9 * f.period ≤ t) :
    f.level t = true := by
  simp only [SerialFrame.level, Machine.frameLevel, if_neg (show ¬ t < f.edge by omega),
    if_neg (show ¬ t < f.edge + f.period by omega), if_neg (Nat.not_lt.mpr h)]

/-- In cells 0..8 the table of rule R93 gives the level of the cell. -/
theorem SerialFrame.level_in_cells {f : SerialFrame} {t : Nat} (hedge : f.edge ≤ t) (hend : t < f.edge + 9 * f.period) :
    f.levels[(t - f.edge) / f.period]? = some (f.level t) := by
  simp only [SerialFrame.level, Machine.frameLevel, if_neg (Nat.not_lt.mpr hedge), if_pos hend]
  rcases Nat.lt_or_ge t (f.edge + f.period) with hstart | hdata
  · rw [if_pos hstart, Nat.div_eq_of_lt (by omega)]
    rfl
  · obtain ⟨c, hc⟩ : ∃ c, (t - f.edge) / f.period = c + 1 :=
      Nat.exists_eq_add_one.mpr (Nat.div_pos (by omega) (by omega))
    have hlt : c < 8 := by
      have : (t - f.edge) / f.period < 9 := Nat.div_lt_of_lt_mul (by rw [Nat.mul_comm]; omega)
      omega
    rw [if_neg (Nat.not_lt.mpr hdata), hc]
    simp [SerialFrame.levels, hlt]

/-! ### Several frames -/

/-- Before the first edge every frame is idle. -/
theorem all_level_of_lt_edges {fs : List SerialFrame} {t : Nat} (h : ∀ f ∈ fs, t < f.edge) :
    fs.all (fun f => f.level t) = true :=
  List.all_eq_true.mpr fun f hf => SerialFrame.level_of_lt_edge (h f hf)

/-- The script from a position already reached gives the level of all frames from there on. -/
theorem framesFrom_level : ∀ {fs : List SerialFrame} {pos t : Nat},
    fs.Pairwise (fun f g => f.edge + 10 * f.period ≤ g.edge) → (∀ f ∈ fs, pos ≤ f.edge) → pos ≤ t →
      (segLevel (framesFrom pos fs) (t - pos)).getD true = fs.all fun f => f.level t
  | [], _, _, _, _, _ => rfl
  | f :: fs, pos, t, hpw, hpos, ht => by
    obtain ⟨hnext, hrest⟩ := List.pairwise_cons.mp hpw
    have hedge := hpos f List.mem_cons_self
    rw [framesFrom, List.all_cons, List.cons_append, SerialFrame.cells_eq]
    rcases Nat.lt_or_ge t f.edge with hidle | hbegun
    · have hall : fs.all (fun f => f.level t) = true :=
        all_level_of_lt_edges fun g hg => by have := hnext g hg; omega
      rw [segLevel_cons_of_lt _ _ (by omega), SerialFrame.level_of_lt_edge hidle, hall]
      rfl
    rw [segLevel_cons_of_le _ _ (by omega), show t - pos - (f.edge - pos) = t - f.edge by omega]
    rcases Nat.lt_or_ge t (f.edge + 9 * f.period) with hcells | hover
    · have hall : fs.all (fun f => f.level t) = true :=
        all_level_of_lt_edges fun g hg => by have := hnext g hg; omega
      rw [segLevel_cells_of_lt _ (by rw [SerialFrame.length_levels]; omega), SerialFrame.level_in_cells hbegun hcells,
        hall, Bool.and_true]
      rfl
    · rw [segLevel_cells_of_le _ (by rw [SerialFrame.length_levels]; omega), SerialFrame.length_levels, Nat.sub_sub,
        framesFrom_level hrest (fun g hg => by have := hnext g hg; omega) hover, SerialFrame.level_of_cells_le hover,
        Bool.true_and]

/-- Settles O31: the script of the frames from tick 0. -/
theorem frameWaveform : Obligations.FrameWaveform := fun _ hpw t =>
  framesFrom_level hpw (fun _ _ => Nat.zero_le _) (Nat.zero_le t)

end Sys2Proof
end

section
/-! PROOFS. The hunt of `RXBYTE` on an idle line (42_uart_rx.md rules R162, R165): one poll that reads 1, then any number of them. -/

namespace Sys2Proof.Machine

/-! ### One poll -/

/-- In the hunt a step is a poll of the line (43_control.md rule R190). -/
theorem step_of_hunt {s : State} (hw : s.params.wf = true) (hf : s.fault = none) (hr : s.rxs = .hunt) :
    step s = rxHunt s := by
  simp only [step, hw, hf, runSequencer, hr, if_true]

/-- The state after a poll of the hunt that reads 1 (rule R162). -/
def State.idlePoll (s : State) : State := (s.pinRead s.params.cfg.pinRX).delay s.params.cfg.tPoll

theorem rxHunt_of_high {s : State} (h : s.rxLevel = true) : rxHunt s = .next s.idlePoll := by
  simp [rxHunt, startBitSeen, h, State.idlePoll]

@[simp] theorem idlePoll_now (s : State) : s.idlePoll.now = s.now + s.params.cfg.tPoll := rfl
@[simp] theorem idlePoll_params (s : State) : s.idlePoll.params = s.params := rfl
@[simp] theorem idlePoll_fault (s : State) : s.idlePoll.fault = s.fault := rfl
@[simp] theorem idlePoll_rxs (s : State) : s.idlePoll.rxs = s.rxs := rfl

theorem idlePoll_trace {s : State} (h : s.rxLevel = true) :
    s.idlePoll.trace = s.trace ++ [.read s.params.cfg.pinRX true s.now] := by
  rw [← h]
  rfl

/-! ### Any number of polls -/

/-- The tick of poll `j` of a hunt that starts in `s` (rule R166). -/
def State.pollTick (s : State) (j : Nat) : Nat := s.now + j * s.params.cfg.tPoll

theorem pollTick_zero (s : State) : s.pollTick 0 = s.now := by simp [State.pollTick]

/-- The polls that follow the first are those of a hunt that starts after it. -/
theorem pollTick_idlePoll (s : State) (j : Nat) : s.idlePoll.pollTick j = s.pollTick (j + 1) := by
  simp only [State.pollTick, idlePoll_now, idlePoll_params, Nat.succ_mul]
  omega

/-- The samples of `n` polls that read 1. -/
def State.idleSamples (s : State) (n : Nat) : List Event :=
  (List.range n).map fun j => .read s.params.cfg.pinRX true (s.pollTick j)

theorem idleSamples_succ (s : State) (n : Nat) :
    s.idleSamples (n + 1) = .read s.params.cfg.pinRX true s.now :: s.idlePoll.idleSamples n := by
  simp only [State.idleSamples, List.range_succ_eq_map, List.map_cons, List.map_map, pollTick_zero,
    Function.comp_def, pollTick_idlePoll, idlePoll_params]

/-- The state after `n` polls that read 1 (rule R165). -/
def State.idlePolls (s : State) (n : Nat) : State :=
  { s with now := s.pollTick n, trace := s.trace ++ s.idleSamples n }

theorem idlePolls_zero (s : State) : s.idlePolls 0 = s := by
  simp [State.idlePolls, State.idleSamples, pollTick_zero]

theorem idlePolls_succ {s : State} (h : s.rxLevel = true) (n : Nat) :
    s.idlePolls (n + 1) = s.idlePoll.idlePolls n := by
  unfold State.idlePolls
  rw [pollTick_idlePoll, idlePoll_trace h, List.append_assoc, List.singleton_append, ← idleSamples_succ]
  rfl

/-- Steps from the hunt stay in it while every poll reads 1 (rule R165). -/
theorem runFor_of_idle_hunt : ∀ (n : Nat) {s : State}, s.params.wf = true → s.fault = none → s.rxs = .hunt →
    (∀ j < n, s.params.rxLine.level (s.pollTick j) = true) → runFor n s = .next (s.idlePolls n)
  | 0, s, _, _, _, _ => by rw [idlePolls_zero]; rfl
  | n + 1, s, hw, hf, hr, hline => by
    have hfirst : s.rxLevel = true := by
      have h := hline 0 n.succ_pos
      rwa [pollTick_zero] at h
    have hrest : ∀ j < n, s.idlePoll.params.rxLine.level (s.idlePoll.pollTick j) = true := fun j hj => by
      rw [pollTick_idlePoll]
      exact hline (j + 1) (Nat.succ_lt_succ hj)
    calc runFor (n + 1) s
        = andThen (step s) (runFor n) := rfl
      _ = runFor n s.idlePoll := by rw [step_of_hunt hw hf hr, rxHunt_of_high hfirst]; rfl
      _ = .next (s.idlePoll.idlePolls n) :=
        runFor_of_idle_hunt n hw ((idlePoll_fault s).trans hf) ((idlePoll_rxs s).trans hr) hrest
      _ = .next (s.idlePolls (n + 1)) := by rw [idlePolls_succ hfirst]

/-- Settles O28: the run from the hunt, by induction on the number of polls. -/
theorem idleLineHuntsForEver : Obligations.IdleLineHuntsForEver := fun n _ => runFor_of_idle_hunt n

end Sys2Proof.Machine
end

section
/-! PROOFS. The program counter after every kind of step (43_control.md rule R192): where an operation moves it unless it faults, and what the receiver's micro-steps do with it. -/

namespace Sys2Proof.Machine

/-! ### The rule R192 -/

/-- Where rule R192 has an operation that completes leave `pc`; for `RXBYTE` this is its entry step. -/
def nextPc (pc : Nat) : Instr → Nat
  | .jmp a => a.toNat
  | .rxbyte => pc
  | _ => pc + 1

theorem nextPc_of_isLcd {i : Instr} (pc : Nat) (h : isLcd i = true) : nextPc pc i = pc + 1 := by
  cases i with
  | rxbyte | jmp a => cases h
  | _ => rfl

/-- From `s` to `t` the counter moves to `n`, or stays where the step faults (rules R192, R212). -/
structure PcMoved (s t : State) (n : Nat) : Prop where
  of_fault : t.fault ≠ none → t.pc = s.pc
  of_ok : t.fault = none → t.pc = n

theorem PcMoved.of_eq {s t : State} {n : Nat} (hf : t.fault = none) (hpc : t.pc = n) : PcMoved s t n :=
  ⟨fun h => absurd hf h, fun _ => hpc⟩

theorem pcMoved_raiseFault {s u : State} (h : u.pc = s.pc) (c : FaultCode) (info n : Nat) :
    PcMoved s (u.raiseFault c info) n :=
  ⟨fun _ => h, fun hf => by simp at hf⟩

/-! ### Operations -/

theorem lcdOutcome_pcMoved {s t : State} (hf : s.fault = none) (h : LcdOutcome s t) : PcMoved s t (s.pc + 1) := by
  obtain ⟨p, _, rfl⟩ | ⟨_, u, hu, hend⟩ := h
  · exact pcMoved_raiseFault rfl _ _ _
  · obtain ⟨hpc, _, _, _, _, _, hfault, _⟩ := hu.frame
    obtain rfl | ⟨a, rfl⟩ := hend
    · exact .of_eq (hfault.trans hf) (congrArg (· + 1) hpc)
    · exact pcMoved_raiseFault hpc _ _ _

/-- An operation that does not fault leaves the counter where rule R192 says. -/
theorem exec_pcMoved {i : Instr} {s t : State} (hf : s.fault = none) (h : exec i s = .next t) :
    PcMoved s t (nextPc s.pc i) := by
  obtain ⟨p, l, rfl, rfl⟩ | ⟨p, rfl, rfl⟩ | ⟨sel, rfl, rfl⟩ | ⟨hi, hlcd⟩ | ⟨_, _, rfl⟩ | ⟨rfl, _, rfl⟩ | ⟨_, _, rfl⟩ |
    ⟨a, rfl, rfl⟩ := exec_next h
  · exact .of_eq hf rfl
  · exact .of_eq hf rfl
  · exact .of_eq hf rfl
  · exact nextPc_of_isLcd s.pc hi ▸ lcdOutcome_pcMoved hf hlcd
  · exact pcMoved_raiseFault rfl _ _ _
  · exact .of_eq hf rfl
  · exact pcMoved_raiseFault rfl _ _ _
  · exact .of_eq hf rfl

/-! ### Receiver micro-steps -/

theorem rxHunt_pc {s t : State} (h : rxHunt s = .next t) : t.pc = s.pc := by
  obtain ⟨_, rfl⟩ | ⟨_, rfl⟩ := rxHunt_next h <;> rfl

theorem rxSample_pc {s t : State} (h : rxSample s = .next t) : t.pc = if s.rxk = 7 then s.pc + 1 else s.pc := by
  obtain ⟨hk, rfl⟩ | ⟨hk, b, _, rfl⟩ := rxSample_next h
  · rw [if_neg hk]
    rfl
  · rw [if_pos hk]
    rfl

/-- No sample of the line raises a fault, the completing one neither (60_exceptions.md rule R211). -/
theorem rxSample_fault {s t : State} (h : rxSample s = .next t) : t.fault = s.fault := by
  obtain ⟨_, rfl⟩ | ⟨_, b, _, rfl⟩ := rxSample_next h <;> rfl

/-! ### A step -/

/-- In a receive a step is a sample of the line (43_control.md rule R190). -/
theorem step_of_sample {s : State} (hw : s.params.wf = true) (hf : s.fault = none) (hr : s.rxs = .sample) :
    step s = rxSample s := by
  simp only [step, hw, hf, runSequencer, hr, if_true]

theorem runWord_op {s : State} {w : Word16} {i : Instr} (hd : decode w = .op i) : runWord w s = exec i s := by
  simp only [runWord, hd]

/-- A faulting step leaves the counter, whatever kind of step it is. -/
theorem step_pc_of_fault {s t : State} (h : step s = .next t) (ht : t.fault ≠ none) : t.pc = s.pc := by
  obtain ⟨_, hf, ⟨_, hhunt⟩ | ⟨_, hsample⟩ | ⟨_, _, rfl⟩ | ⟨_, w, why, _, _, rfl⟩ | ⟨_, w, i, _, _, hexec⟩⟩ :=
    step_next h
  · exact rxHunt_pc hhunt
  · exact absurd ((rxSample_fault hsample).trans hf) ht
  · exact raiseFault_pc _ _ _
  · exact raiseFault_pc _ _ _
  · exact (exec_pcMoved hf hexec).of_fault ht

/-! ### The obligation -/

/-- Settles O11: one clause for a fault, one for each kind of step. -/
theorem pcUpdate : Obligations.PcUpdate := by
  intro s t h
  obtain ⟨hw, hf, _⟩ := step_next h
  refine ⟨step_pc_of_fault h, fun hr => ?_, fun hr => ?_, fun hr ht w i hfw hd => ?_⟩
  · rw [step_of_hunt hw hf hr] at h
    exact rxHunt_pc h
  · rw [step_of_sample hw hf hr] at h
    exact rxSample_pc h
  · rw [step_eq_runWord hw hf hr hfw, runWord_op hd] at h
    exact (exec_pcMoved hf h).of_ok ht

end Sys2Proof.Machine
end

section
/-! PROOFS. The encoder and the decoder, both ways (30_encoding.md rules R83, R87). -/

namespace Sys2Proof

/-! ### Operand fields -/

theorem portBitOf_ofNat : ∀ p : PortBit, portBitOf (BitVec.ofNat 4 p.val) = some p := by decide

theorem selectorOf_selectorNumber (s : Selector) : selectorOf (selectorNumber s) = some s := by
  cases s <;> rfl

/-- The byte that spells the level of `PINOUT` is below 2, and the level is its bit 0 (rule R84). -/
theorem level_field : ∀ l : Bit, (if l then 1 else 0 : Byte).toNat < 2 ∧ (if l then 1 else 0 : Byte).getLsbD 0 = l := by
  decide

/-! ### The word of each operation -/

/-- The word of an operation decodes to it: operation by operation, its fields read back (rule R87). -/
theorem decode_encode (i : Instr) : decode (encode i) = .op i := by
  cases i with
  | pinout p l =>
    obtain ⟨hlt, hbit⟩ := level_field l
    simp only [encode, decode, withPortBit, opField_wordOf, aField_wordOf, immField_wordOf, portBitOf_ofNat]
    exact (if_pos hlt).trans (congrArg (fun v => Decoded.op (.pinout p v)) hbit)
  | pinin p => simp [encode, decode, withPortBit, withZeroImm, portBitOf_ofNat]
  | delay s => simp [encode, decode, withZeroImm, selectorOf_selectorNumber]
  | lcdcmd1 b | lcdcmd b | lcdchr b | lcdstr b | jmp b => simp [encode, decode, withZeroA]
  | lcdchrr | lcdinit | rxbyte => simp [encode, decode, withZeroA, withZeroImm]

/-- An operation decodes from its own word and from no other (rules R83, R87). -/
theorem decode_eq_op_iff {w : Word16} {i : Instr} : decode w = .op i ↔ encode i = w :=
  ⟨encode_of_decode, fun h => h ▸ decode_encode i⟩

/-- Settles O1: the two directions of `decode_eq_op_iff`. -/
theorem decodeEncodeAgree : Obligations.DecodeEncodeAgree :=
  ⟨decode_encode, fun _ _ => encode_of_decode⟩

/-- Settles O4: each word is the word of its operation. -/
theorem sampleWordsDecode : Obligations.SampleWordsDecode := by
  simp only [Obligations.SampleWordsDecode, decode_eq_op_iff]
  decide

end Sys2Proof
end

section
/-! PROOFS. The step as rule R190 (43_control.md) gives it: a decoded word runs its operation, a fetch past the program and a recorded fault run none. Then the operations that are one update each: `PINOUT`, `PININ`, `DELAY`, `JMP` (40_gpio_timing.md rules R115 to R117; 43_control.md rule R193). -/

namespace Sys2Proof

/-- The five conditions of rule R12 (00_scope.md). -/
theorem Params.wf_iff {p : Params} : p.wf = true ↔
    1 ≤ p.cfg.tBit ∧ 1 ≤ p.cfg.tPoll ∧ p.cfg.pins.Nodup ∧ 1 ≤ p.prog.length ∧ p.prog.length ≤ 256 := by
  simp only [Params.wf, Bool.and_eq_true, decide_eq_true_eq, and_assoc]

theorem Params.nodup_pins {p : Params} (h : p.wf = true) : p.cfg.pins.Nodup := by
  obtain ⟨_, _, hd, _⟩ := wf_iff.mp h
  exact hd

theorem Params.length_prog_le {p : Params} (h : p.wf = true) : p.prog.length ≤ 256 := by
  obtain ⟨_, _, _, _, hlen⟩ := wf_iff.mp h
  exact hlen

end Sys2Proof

namespace Sys2Proof.Machine

/-! ### The step -/

/-- A word that decodes is run by the step that fetches it (rule R190). -/
theorem step_eq_exec {s : State} {w : Word16} {i : Instr} (hw : s.params.wf = true) (hf : s.fault = none)
    (hr : s.rxs = .none) (hfw : s.params.prog[s.pc]? = some w) (hd : decode w = .op i) : step s = exec i s := by
  rw [step_eq_runWord hw hf hr hfw, runWord_op hd]

theorem raiseFault_pcRange (s : State) (info : Nat) :
    s.raiseFault .pcRange info = { s with fault := some ⟨.pcRange, s.pc, 0⟩ } := by
  simp [State.raiseFault, State.faultWord]

/-- Any fault but `F_PC_RANGE` records the word at `pc` (60_exceptions.md rule R212). -/
theorem raiseFault_of_ne_pcRange (s : State) {c : FaultCode} (h : c ≠ .pcRange) (info : Nat) :
    s.raiseFault c info = { s with fault := some ⟨c, s.pc, s.params.prog[s.pc]?.getD 0⟩ } := by
  simp [State.raiseFault, State.faultWord, State.fetchWord, h]

/-- A fetch past the program (rule R190). -/
theorem step_past_program {s : State} (hw : s.params.wf = true) (hf : s.fault = none) (hr : s.rxs = .none)
    (hpc : s.params.prog.length ≤ s.pc) : step s = .next (s.raiseFault .pcRange s.pc) := by
  have hfetch : s.fetchWord = none := List.getElem?_eq_none hpc
  simp only [step, hw, hf, runSequencer, hr, fetchAndRun, hfetch, if_true]

/-- From a recorded fault no step is taken (60_exceptions.md rule R212). -/
theorem step_of_fault {s : State} {r : FaultRecord} (hw : s.params.wf = true) (hf : s.fault = some r) :
    step s = .fault (.stopped r.code r.pc r.word) := by
  simp only [step, hw, hf, if_true]

/-- What an ended state says of itself (43_control.md rule R198). -/
theorem ended_iff {s : State} : s.ended = true ↔
    s.fault = none ∧ s.rxs = .none ∧ s.pc < 256 ∧ s.fetchWord = some (encode (.jmp (BitVec.ofNat 8 s.pc))) := by
  simp only [State.ended, Bool.and_eq_true, decide_eq_true_eq, and_assoc]

/-! ### The obligations -/

/-- Settles O5: the fetch, then the decoded operation. -/
theorem stepRunsDecodedOperation : Obligations.StepRunsDecodedOperation :=
  fun _ _ _ => step_eq_exec

/-- Settles O6: the record of `F_PC_RANGE` has no word. -/
theorem fetchPastProgramFaults : Obligations.FetchPastProgramFaults := by
  intro s hw hf hr hpc
  rw [step_past_program hw hf hr hpc, raiseFault_pcRange]

/-- Settles O7: the first of the steps is not taken. -/
theorem recordedFaultIsTerminal : Obligations.RecordedFaultIsTerminal := by
  intro s r n hw hf
  rw [runFor, step_of_fault hw hf, andThen_fault]

/-- Settles O12. -/
theorem pinoutResult : Obligations.PinoutResult := by
  intro s p l
  refine ⟨((s.pinDir p .output).pinWrite p l).advance, rfl, fun q => ?_, fun q => ?_, ?_, rfl, rfl, rfl, rfl, rfl, rfl,
    rfl, rfl⟩
  · exact Port.read_write s.dir p q _
  · exact Port.read_write s.out p q _
  · simp

/-- Settles O13. -/
theorem pininResult : Obligations.PininResult := fun s p =>
  ⟨(s.pinDir p .input).advance, rfl, fun q => Port.read_write s.dir p q _, rfl, rfl, rfl, rfl, rfl, rfl, rfl, rfl, rfl,
    rfl⟩

/-- Settles O14: selector by selector. -/
theorem delayResult : Obligations.DelayResult := by
  intro s sel
  cases sel <;> rfl

/-- Settles O15: the jump itself, then the fetch at its target. -/
theorem jmpResult : Obligations.JmpResult := by
  refine fun s a => ⟨rfl, fun hw hf hr hpc => ?_⟩
  rw [step_past_program (s := { s with pc := a.toNat }) hw hf hr hpc, raiseFault_pcRange]

/-- Settles O16: the jump goes to the `pc` it is at. -/
theorem haltLoopsInPlace : Obligations.HaltLoopsInPlace := by
  intro s hw hend
  obtain ⟨hf, hr, hpc, hfetch⟩ := ended_iff.mp hend
  have htarget : (BitVec.ofNat 8 s.pc).toNat = s.pc := by
    rw [BitVec.toNat_ofNat]
    exact Nat.mod_eq_of_lt hpc
  calc step s
      = exec (.jmp (BitVec.ofNat 8 s.pc)) s := step_eq_exec hw hf hr hfetch (decode_encode _)
    _ = .next (s.jumpTo (BitVec.ofNat 8 s.pc).toNat) := rfl
    _ = .next s := by rw [htarget]; rfl

end Sys2Proof.Machine
end

section
/-! PROOFS. The LCD transmitter (41_lcd.md rules R130 to R147): the entry checks, the operations that complete with their exact events and ticks, and what no LCD operation touches. -/

namespace Sys2Proof.Machine

/-! ### The entry checks -/

theorem lcdCheck_isSome {s : State} {p : PortBit} (hp : p ∈ lcdPins s.params.cfg) (hd : s.dir.read p ≠ some .output) :
    ∃ q, s.lcdCheck = some q :=
  Option.ne_none_iff_exists'.mp fun h => hd (lcdCheck_eq_none.mp h p hp)

/-- With a pin that is no output the entry check raises `F_DIR_OUT` (rule R130). -/
theorem withLcdCheck_fails {s : State} {p : PortBit} (hp : p ∈ lcdPins s.params.cfg)
    (hd : s.dir.read p ≠ some .output) (k : State → Result) :
    withLcdCheck s k = .next { s with fault := some ⟨.dirOut, s.pc, s.params.prog[s.pc]?.getD 0⟩ } := by
  obtain ⟨q, hq⟩ := lcdCheck_isSome hp hd
  rw [withLcdCheck, hq, ← raiseFault_of_ne_pcRange s (by decide) q.val]

theorem exec_lcdchrr_of_unwritten {s : State} (h : s.rxd = none) :
    exec .lcdchrr s = .next (s.raiseFault .unwritten 0) := by
  simp only [exec, execLcdchrr, h]

theorem exec_lcdchrr_of_written {s : State} {b : Byte} (h : s.rxd = some b) :
    exec .lcdchrr s = exec (.lcdchr b) s := by
  simp only [exec, execLcdchrr, execLcdchr, h]

theorem isLcd_iff {i : Instr} : isLcd i = true ↔
    i = .lcdchrr ∨ i = .lcdinit ∨ ∃ b, i = .lcdcmd1 b ∨ i = .lcdcmd b ∨ i = .lcdchr b ∨ i = .lcdstr b := by
  cases i <;> simp [isLcd]

/-- An LCD operation starts with the shared check, `LCDCHRR` once it has found `rxd` written (rules R130, R138). -/
theorem exec_eq_withLcdCheck {i : Instr} {s : State} (hi : isLcd i = true) (hr : i = .lcdchrr → s.rxd ≠ none) :
    ∃ k, exec i s = withLcdCheck s k := by
  cases i with
  | lcdchrr =>
    obtain ⟨b, hb⟩ := Option.ne_none_iff_exists'.mp (hr rfl)
    exact ⟨fun s => andThen (send2 true b s) finish, exec_lcdchrr_of_written hb⟩
  | lcdcmd1 b => exact ⟨fun s => andThen (send1 b s) finish, rfl⟩
  | lcdcmd b => exact ⟨fun s => andThen (send2 false b s) finish, rfl⟩
  | lcdchr b => exact ⟨fun s => andThen (send2 true b s) finish, rfl⟩
  | lcdstr a => exact ⟨sendString (Memory.size - a.toNat), rfl⟩
  | lcdinit =>
    exact ⟨fun s => andThen (sendAll (initSends s.params.cfg) (s.delay s.params.cfg.tPwrup)) finish, rfl⟩
  | _ => cases hi

/-- Settles O10: `LCDCHRR` looks at `rxd` first; the check of the pins is the shared one. -/
theorem lcdEntryChecks : Obligations.LcdEntryChecks := by
  refine fun s => ⟨fun hr => ?_, fun ⟨p, hp, hd⟩ i hi => ?_⟩
  · rw [exec_lcdchrr_of_unwritten hr, raiseFault_of_ne_pcRange s (by decide)]
  · have hcheck : isLcd i = true ∧ (i = .lcdchrr → s.rxd ≠ none) := by
      obtain rfl | ⟨rfl, hr⟩ | ⟨b, rfl | rfl | rfl | rfl⟩ := hi
      · exact ⟨rfl, nofun⟩
      · exact ⟨rfl, fun _ => hr⟩
      all_goals exact ⟨rfl, nofun⟩
    obtain ⟨k, hk⟩ := exec_eq_withLcdCheck hcheck.1 hcheck.2
    rw [hk, withLcdCheck_fails hp hd]

/-! ### Operations that complete -/

/-- What follows the transfers of an operation changes only `pc` and `fault`. -/
theorem LcdSent.of_frame {s t : State} {rs : Bit} {n : Nibble} {k : Nat} {es : List Event} (h : LcdSent s t rs n k es)
    (pc : Nat) (f : Option FaultRecord) : LcdSent s { t with pc := pc, fault := f } rs n k es :=
  ⟨h.now_eq, h.trace_eq, h.out_eq, h.dir_eq, h.rxd_eq, h.rxs_eq, h.rxk_eq, h.acc_eq, h.params_eq⟩

theorem LcdSent.advance {s t : State} {rs : Bit} {n : Nibble} {k : Nat} {es : List Event} (h : LcdSent s t rs n k es) :
    LcdSent s t.advance rs n k es := h.of_frame (t.pc + 1) t.fault

theorem LcdSent.raiseFault {s t : State} {rs : Bit} {n : Nibble} {k : Nat} {es : List Event}
    (h : LcdSent s t rs n k es) (c : FaultCode) (info : Nat) : LcdSent s (t.raiseFault c info) rs n k es :=
  h.of_frame t.pc _

/-- Transfers leave the machine ready for the LCD, with E low. -/
theorem LcdSent.ready {s t : State} {rs e : Bit} {n : Nibble} {k : Nat} {es : List Event} (h : LcdSent s t rs n k es)
    (hs : LcdReady s e) : LcdReady t false where
  outputs p hp := by
    rw [h.params_eq] at hp
    rw [h.dir_eq]
    exact hs.outputs p hp
  eLatch := h.eLatch hs.pins
  pins := by
    rw [h.params_eq]
    exact hs.pins

/-- An LCD operation whose sequence completes: the sequence, then `pc` on by one. -/
theorem withLcdCheck_finish_sent {s : State} {e rs : Bit} {n : Nibble} {ticks : Nat} {es : List Event}
    {k : State → Result} (hs : LcdReady s e)
    (hk : ∃ u, k s = .next u ∧ u.pc = s.pc ∧ u.fault = s.fault ∧ LcdSent s u rs n ticks es) :
    ∃ t, withLcdCheck s (fun s => andThen (k s) finish) = .next t ∧ t.pc = s.pc + 1 ∧ t.fault = s.fault ∧
      LcdSent s t rs n ticks es := by
  obtain ⟨u, hu, hpc, hfault, hsent⟩ := hk
  refine ⟨u.advance, ?_, ?_, hfault, hsent.advance⟩
  · rw [withLcdCheck_ready hs.outputs, hu, andThen_next]
    rfl
  · rw [advance_pc, hpc]

theorem oneshotNibble_eq (c : Cfg) (b : Byte) :
    oneshotNibble c b = if c.oneshotHalf = .high then b.extractLsb' 4 4 else b.extractLsb' 0 4 := by
  unfold oneshotNibble
  cases c.oneshotHalf <;> rfl

/-- Settles O17. -/
theorem lcdcmd1SendsOneTransfer : Obligations.Lcdcmd1SendsOneTransfer := by
  intro s e b hs
  rw [← oneshotNibble_eq]
  exact withLcdCheck_finish_sent (k := send1 b) hs (send1_sent b hs.pins hs.eLatch)

/-- Settles O18: with its byte written `LCDCHRR` is `LCDCHR`. -/
theorem lcdByteOperationsSendTwoTransfers : Obligations.LcdByteOperationsSendTwoTransfers := by
  intro s e b hs i rs hi
  have hsend := withLcdCheck_finish_sent (k := send2 rs b) hs (send2_sent rs b hs.pins hs.eLatch)
  obtain ⟨rfl, rfl⟩ | ⟨rfl, rfl⟩ | ⟨rfl, hrxd, rfl⟩ := hi
  · exact hsend
  · exact hsend
  · rw [exec_lcdchrr_of_written hrxd]
    exact hsend

/-! ### `LCDINIT` -/

/-- The nibble a command of `LCDINIT` leaves on the bus (rule R140). -/
def InitSend.lastNibble (c : Cfg) : InitSend → Nibble
  | .oneShot b => oneshotNibble c b
  | .twoNibble b => lowNibble b

/-- The transfers of a command of `LCDINIT`. -/
def InitSend.transfers : InitSend → Nat
  | .oneShot _ => 1
  | .twoNibble _ => 2

/-- The events of a command of `LCDINIT` from tick `t`. -/
def InitSend.events (c : Cfg) (t : Nat) (edge : Bool) : InitSend → List Event
  | .oneShot b => oneshotEvents c b t edge
  | .twoNibble b => byteEvents c false b t edge

/-- The events of commands one after the other. -/
def initSendsEvents (c : Cfg) : List InitSend → Nat → Bool → List Event
  | [], _, _ => []
  | i :: is, t, edge => i.events c t edge ++ initSendsEvents c is (t + i.transfers * Cfg.transferCost c) true

theorem sendInit_sent {s : State} {e : Bit} (i : InitSend) (hs : LcdReady s e) :
    ∃ t, sendInit i s = .next t ∧ t.pc = s.pc ∧ t.fault = s.fault ∧
      LcdSent s t false (i.lastNibble s.params.cfg) (i.transfers * Cfg.transferCost s.params.cfg)
        (i.events s.params.cfg s.now (!e)) := by
  cases i with
  | oneShot b =>
    rw [InitSend.transfers, Nat.one_mul]
    exact send1_sent b hs.pins hs.eLatch
  | twoNibble b => exact send2_sent false b hs.pins hs.eLatch

/-- Commands one after the other: the bus is left as the last one leaves it. -/
theorem sendAll_sent : ∀ (i : InitSend) (is : List InitSend) {s : State} {e : Bit}, LcdReady s e →
    ∃ t, sendAll (i :: is) s = .next t ∧ t.pc = s.pc ∧ t.fault = s.fault ∧
      LcdSent s t false (((i :: is).getLast (List.cons_ne_nil i is)).lastNibble s.params.cfg)
        (((i :: is).map InitSend.transfers).sum * Cfg.transferCost s.params.cfg)
        (initSendsEvents s.params.cfg (i :: is) s.now (!e))
  | i, [], s, e, hs => by
    obtain ⟨t, ht, hpc, hfault, hsent⟩ := sendInit_sent i hs
    refine ⟨t, ?_, hpc, hfault, ?_⟩
    · rw [sendAll, ht, andThen_next, sendAll]
    · simpa [initSendsEvents] using hsent
  | i, j :: is, s, e, hs => by
    obtain ⟨u, hu, hpcu, hfaultu, hfirst⟩ := sendInit_sent i hs
    obtain ⟨t, ht, hpct, hfaultt, hrest⟩ := sendAll_sent j is (hfirst.ready hs)
    refine ⟨t, ?_, hpct.trans hpcu, hfaultt.trans hfaultu, ?_⟩
    · rw [sendAll, hu, andThen_next, ht]
    · rw [hfirst.params_eq, hfirst.now_eq] at hrest
      simpa only [List.map_cons, List.sum_cons, Nat.add_mul, initSendsEvents, List.getLast_cons_cons,
        Bool.not_false] using hfirst.trans hrest

/-- The commands of `LCDINIT` are ten transfers, at the ticks rule R142 gives. -/
theorem initEvents_eq (c : Cfg) (t : Nat) (edge : Bool) :
    initEvents c t edge = initSendsEvents c (initSends c) t edge := by
  simp only [initEvents, initSendsEvents, initSends, InitSend.events, InitSend.transfers, List.append_assoc,
    List.append_nil, Nat.add_assoc, ← Nat.add_mul, Nat.reduceAdd]
  simp only [Nat.one_mul]

/-- Settles O21: the wait, then the commands one after the other. -/
theorem lcdinitSendsHandshake : Obligations.LcdinitSendsHandshake := by
  intro s e hs
  rw [initEvents_eq]
  refine withLcdCheck_finish_sent (k := fun s => sendAll (initSends s.params.cfg) (s.delay s.params.cfg.tPwrup)) hs ?_
  have hwait : LcdReady (s.delay s.params.cfg.tPwrup) e := ⟨hs.outputs, hs.eLatch, hs.pins⟩
  obtain ⟨t, ht, hpc, hfault, hsent⟩ := sendAll_sent _ _ hwait
  exact ⟨t, ht, hpc, hfault, hsent.after_delay⟩

end Sys2Proof.Machine
end

section
/-! PROOFS. `LCDSTR` (41_lcd.md rule R139): the characters one after the other, then the zero byte or the end of ROM. -/

namespace Sys2Proof.Machine

/-! ### Bytes of ROM -/

theorem romHolds_cons {m : Memory} {a : Nat} {c : Byte} {cs : List Byte} (h : romHolds m a (c :: cs)) :
    a < 256 ∧ m.read a = c ∧ c ≠ 0 ∧ romHolds m (a + 1) cs := by
  obtain ⟨hlen, hbyte⟩ := h
  rw [List.length_cons] at hlen
  obtain ⟨hread, hne⟩ := hbyte 0 (by simp)
  refine ⟨by omega, hread, hne, by omega, fun i hi => ?_⟩
  rw [Nat.add_assoc, Nat.add_comm 1]
  exact hbyte (i + 1) (by simpa using hi)

/-- At a byte that is not zero the loop sends it and goes on (rule R139). -/
theorem sendString_of_char {s : State} {n : Nat} {c : Byte} (hread : s.params.rom.read (256 - (n + 1)) = c)
    (hc : c ≠ 0) : sendString (n + 1) s = andThen (send2 true c s) (sendString n) := by
  have hrom : memRead s.params.rom (256 - (n + 1)) = some c := hread ▸ memRead_of_lt (by omega)
  rw [sendString, show Memory.size = 256 from rfl, hrom]
  exact if_neg (by simpa [isTerminator] using hc)

/-- At a zero byte the loop ends (rule R139). -/
theorem sendString_of_zero {s : State} {n : Nat} (hread : s.params.rom.read (256 - (n + 1)) = 0) :
    sendString (n + 1) s = .next s.advance := by
  have hrom : memRead s.params.rom (256 - (n + 1)) = some 0 := hread ▸ memRead_of_lt (by omega)
  rw [sendString, show Memory.size = 256 from rfl, hrom]
  rfl

/-! ### Characters one after the other -/

/-- The characters `cs` were sent from `s`, and nothing was done for none of them (rules R139, R142). -/
def StringSent (s t : State) (cs : List Byte) (edge : Bit) : Prop :=
  match cs.getLast? with
  | none => t = s
  | some c => LcdSent s t true (lowNibble c) (2 * Cfg.transferCost s.params.cfg * cs.length)
      (stringEvents s.params.cfg cs s.now edge)

theorem StringSent.nil (s : State) (edge : Bit) : StringSent s s [] edge := rfl

theorem StringSent.eq_of_none {s t : State} {cs : List Byte} {edge : Bit} (h : StringSent s t cs edge)
    (hlast : cs.getLast? = none) : t = s := by
  unfold StringSent at h
  rwa [hlast] at h

theorem StringSent.lcdSent {s t : State} {cs : List Byte} {edge : Bit} {c : Byte} (h : StringSent s t cs edge)
    (hlast : cs.getLast? = some c) : LcdSent s t true (lowNibble c) (2 * Cfg.transferCost s.params.cfg * cs.length)
      (stringEvents s.params.cfg cs s.now edge) := by
  unfold StringSent at h
  rwa [hlast] at h

theorem stringSent_cons_iff {s t : State} {c : Byte} {cs : List Byte} {edge : Bit} :
    StringSent s t (c :: cs) edge ↔ LcdSent s t true (lowNibble ((c :: cs).getLast (List.cons_ne_nil c cs)))
      (2 * Cfg.transferCost s.params.cfg * (c :: cs).length) (stringEvents s.params.cfg (c :: cs) s.now edge) := by
  rw [StringSent, List.getLast?_eq_some_getLast (List.cons_ne_nil c cs)]

/-- One character, and then the others. -/
theorem StringSent.cons {s u t : State} {c : Byte} {cs : List Byte} {edge : Bit}
    (h1 : LcdSent s u true (lowNibble c) (2 * Cfg.transferCost s.params.cfg)
      (byteEvents s.params.cfg true c s.now edge))
    (h2 : StringSent u t cs true) : StringSent s t (c :: cs) edge := by
  rw [stringSent_cons_iff]
  cases cs with
  | nil =>
    obtain rfl : t = u := h2
    simpa [stringEvents] using h1
  | cons d ds =>
    have hrest := stringSent_cons_iff.mp h2
    rw [h1.params_eq, h1.now_eq] at hrest
    have hticks : 2 * Cfg.transferCost s.params.cfg * (c :: d :: ds).length
        = 2 * Cfg.transferCost s.params.cfg + 2 * Cfg.transferCost s.params.cfg * (d :: ds).length := by
      rw [List.length_cons, Nat.mul_succ, Nat.add_comm]
    rw [hticks, List.getLast_cons_cons]
    exact h1.trans hrest

/-- The loop sends the characters ROM holds and goes on after them. -/
theorem sendString_of_romHolds {m : Nat} : ∀ {cs : List Byte} {s : State} {e : Bit}, LcdReady s e →
    cs.length + m ≤ 256 → romHolds s.params.rom (256 - (cs.length + m)) cs →
    ∃ u, sendString (cs.length + m) s = sendString m u ∧ u.pc = s.pc ∧ u.fault = s.fault ∧ u.params = s.params ∧
      StringSent s u cs (!e)
  | [], s, e, _, _, _ => ⟨s, by rw [List.length_nil, Nat.zero_add], rfl, rfl, rfl, .nil s _⟩
  | c :: cs, s, e, hs, hle, hrom => by
    rw [List.length_cons, Nat.add_right_comm] at hle hrom ⊢
    obtain ⟨_, hread, hc, hrest⟩ := romHolds_cons hrom
    rw [show 256 - (cs.length + m + 1) + 1 = 256 - (cs.length + m) by omega] at hrest
    obtain ⟨v, hv, hpcv, hfaultv, hsent⟩ := send2_sent true c hs.pins hs.eLatch
    have hparams := hsent.params_eq
    rw [← hparams] at hrest
    obtain ⟨u, hu, hpcu, hfaultu, hparamsu, hstring⟩ := sendString_of_romHolds (hsent.ready hs) (by omega) hrest
    refine ⟨u, ?_, hpcu.trans hpcv, hfaultu.trans hfaultv, hparamsu.trans hparams, .cons hsent hstring⟩
    rw [sendString_of_char hread hc, hv, andThen_next, hu]

theorem exec_lcdstr_of_ready {s : State} {e : Bit} (hs : LcdReady s e) (a : Byte) :
    exec (.lcdstr a) s = sendString (256 - a.toNat) s := withLcdCheck_ready hs.outputs _

/-- What the loop of `LCDSTR` does up to the end of the characters. -/
theorem exec_lcdstr_of_romHolds {s : State} {e : Bit} {a : Byte} {cs : List Byte} (hs : LcdReady s e)
    (hrom : romHolds s.params.rom a.toNat cs) :
    ∃ u, exec (.lcdstr a) s = sendString (256 - (a.toNat + cs.length)) u ∧ u.pc = s.pc ∧ u.fault = s.fault ∧
      u.params = s.params ∧ StringSent s u cs (!e) := by
  obtain ⟨hlen, _⟩ := id hrom
  have hleft : 256 - a.toNat = cs.length + (256 - (a.toNat + cs.length)) := by omega
  rw [exec_lcdstr_of_ready hs, hleft]
  exact sendString_of_romHolds hs (by omega) (by rwa [← hleft, Nat.sub_sub_self (by omega)])

/-! ### The obligations -/

/-- Settles O19: after the characters the loop finds the zero byte. -/
theorem lcdstrSendsString : Obligations.LcdstrSendsString := by
  intro s e a cs hs hrom hlen hzero
  obtain ⟨u, hu, hpc, hfault, hparams, hstring⟩ := exec_lcdstr_of_romHolds hs hrom
  obtain ⟨n, hn⟩ : ∃ n, 256 - (a.toNat + cs.length) = n + 1 := Nat.exists_eq_add_one.mpr (by omega)
  have haddr : 256 - (n + 1) = a.toNat + cs.length := by omega
  refine ⟨u.advance, ?_, congrArg (· + 1) hpc, hfault, ?_⟩
  · rw [hu, hn, sendString_of_zero (by rw [hparams, haddr, hzero])]
  · cases hlast : cs.getLast? with
    | none => rw [hstring.eq_of_none hlast]; rfl
    | some c => exact (hstring.lcdSent hlast).advance

/-- Settles O20: after the characters the loop reads at 256. -/
theorem lcdstrRunsOffRom : Obligations.LcdstrRunsOffRom := by
  intro s e a cs c hs hrom hlen hlast
  obtain ⟨u, hu, hpc, hfault, hparams, hstring⟩ := exec_lcdstr_of_romHolds hs hrom
  refine ⟨u.raiseFault .romRange Memory.size, ?_, hpc, ?_, ?_⟩
  · rw [hu, hlen]
    rfl
  · rw [raiseFault_of_ne_pcRange u (by decide), hpc, hparams]
  · exact (hstring.lcdSent hlast).raiseFault _ _

end Sys2Proof.Machine
end

section
/-! PROOFS. What an LCD operation leaves alone (41_lcd.md rules R118, R134, R145), and the strobes of a command that is run again (rule R147). -/

namespace Sys2Proof.Machine

/-! ### The frame of bus actions -/

/-- A latch that belongs to no LCD pin is not written. -/
theorem BusRun.out_frame {s t : State} (h : BusRun s t) {p : PortBit} (hp : p ∉ lcdPins s.params.cfg) :
    t.out.read p = s.out.read p := by
  induction h with
  | refl s => rfl
  | write v hq _ _ ih =>
    rw [ih hp, pinWrite_out, Port.read_write_ne _ _ (fun h => hp (by rwa [h]))]
  | delay d _ ih => exact ih hp
  | @strobe s u t hs _ ih =>
    obtain ⟨_, _, _, _, _, _, hout, _, _, _, _, _, _, _, hparams⟩ := strobe_eq_next hs
    have hE : p ≠ s.params.cfg.pinE := fun h => hp (h ▸ by simp [lcdPins])
    rw [ih (hparams.symm ▸ hp), hout, Port.read_write_ne _ _ hE, Port.read_write_ne _ _ hE]

/-- The events of bus actions: no sample and no direction write. -/
theorem BusRun.events {s t : State} (h : BusRun s t) :
    ∃ es, t.trace = s.trace ++ es ∧ ∀ ev ∈ es, ev.isRead = false ∧ ev.isDir = false := by
  induction h with
  | refl s => exact ⟨[], (List.append_nil _).symm, fun _ h => nomatch h⟩
  | write v _ _ _ ih =>
    obtain ⟨es, hes, hall⟩ := ih
    refine ⟨_ :: es, by rw [hes, pinWrite_trace, List.append_assoc, List.singleton_append], ?_⟩
    exact List.forall_mem_cons.mpr ⟨⟨rfl, rfl⟩, hall⟩
  | delay d _ ih => exact ih
  | strobe hs _ ih =>
    obtain ⟨es, hes, hall⟩ := ih
    obtain ⟨e, rs, n, _, _, htrace, _⟩ := strobe_eq_next hs
    refine ⟨_ :: _ :: _ :: es, by rw [hes, htrace, List.append_assoc]; rfl, ?_⟩
    simp only [List.forall_mem_cons]
    exact ⟨⟨rfl, rfl⟩, ⟨rfl, rfl⟩, ⟨rfl, rfl⟩, hall⟩

/-- From `s` to `t` nothing was written but latches of LCD pins, `pc`, `now` and `fault`, and no event added is a sample
or a direction write. -/
structure LcdFrame (s t : State) : Prop where
  dir_eq : t.dir = s.dir
  rxd_eq : t.rxd = s.rxd
  rxs_eq : t.rxs = s.rxs
  rxk_eq : t.rxk = s.rxk
  acc_eq : t.acc = s.acc
  params_eq : t.params = s.params
  out_frame : ∀ p, p ∉ lcdPins s.params.cfg → t.out.read p = s.out.read p
  events : ∃ es, t.trace = s.trace ++ es ∧ ∀ ev ∈ es, ev.isRead = false ∧ ev.isDir = false

theorem BusRun.lcdFrame {s t : State} (h : BusRun s t) : LcdFrame s t := by
  obtain ⟨_, hdir, hrxd, hrxs, hrxk, hacc, _, hparams⟩ := h.frame
  exact ⟨hdir, hrxd, hrxs, hrxk, hacc, hparams, fun _ => h.out_frame, h.events⟩

theorem LcdFrame.advance {s t : State} (h : LcdFrame s t) : LcdFrame s t.advance :=
  ⟨h.dir_eq, h.rxd_eq, h.rxs_eq, h.rxk_eq, h.acc_eq, h.params_eq, h.out_frame, h.events⟩

theorem LcdFrame.raiseFault {s t : State} (h : LcdFrame s t) (c : FaultCode) (info : Nat) :
    LcdFrame s (t.raiseFault c info) :=
  ⟨h.dir_eq, h.rxd_eq, h.rxs_eq, h.rxk_eq, h.acc_eq, h.params_eq, h.out_frame, h.events⟩

theorem LcdOutcome.lcdFrame {s t : State} (h : LcdOutcome s t) : LcdFrame s t := by
  obtain ⟨p, _, rfl⟩ | ⟨_, u, hu, rfl | ⟨a, rfl⟩⟩ := h
  · exact (BusRun.refl s).lcdFrame.raiseFault .dirOut p.val
  · exact hu.lcdFrame.advance
  · exact hu.lcdFrame.raiseFault .romRange a

/-- Everything an LCD operation can do when it answers next. -/
theorem exec_lcd_next {i : Instr} {s t : State} (hi : isLcd i = true) (h : exec i s = .next t) :
    (i = .lcdchrr ∧ s.rxd = none ∧ t = s.raiseFault .unwritten 0) ∨ LcdOutcome s t := by
  obtain ⟨_, _, rfl, _⟩ | ⟨_, rfl, _⟩ | ⟨_, rfl, _⟩ | ⟨_, hlcd⟩ | hunwritten | ⟨rfl, _⟩ | ⟨rfl, _⟩ | ⟨_, rfl, _⟩ :=
    exec_next h
  case inr.inr.inr.inl => exact .inr hlcd
  case inr.inr.inr.inr.inl => exact .inl hunwritten
  all_goals cases hi

/-- Settles O22. -/
theorem lcdOperationsFrame : Obligations.LcdOperationsFrame := by
  intro s t i hi h
  have hframe : LcdFrame s t := by
    obtain ⟨_, _, rfl⟩ | hlcd := exec_lcd_next (isLcd_iff.mpr hi) h
    · exact (BusRun.refl s).lcdFrame.raiseFault .unwritten 0
    · exact hlcd.lcdFrame
  exact ⟨hframe.dir_eq, hframe.rxd_eq, hframe.rxs_eq, hframe.rxk_eq, hframe.acc_eq, hframe.params_eq, hframe.out_frame,
    hframe.events⟩

/-! ### Strobes -/

theorem strobesOf_append (a b : List Event) : strobesOf (a ++ b) = strobesOf a ++ strobesOf b :=
  List.filterMap_append

/-- The strobe of one transfer begun at tick `t` (rule R132). -/
def transferStrobe (c : Cfg) (rs : Bit) (n : Nibble) (t : Nat) (edge : Bool) : StrobeRec :=
  ⟨rs, n, t + c.tSetup, t + c.tSetup + c.tStrobe, edge⟩

theorem strobesOf_transferEvents (c : Cfg) (rs : Bit) (n : Nibble) (t : Nat) (edge : Bool) :
    strobesOf (transferEvents c rs n t edge) = [transferStrobe c rs n t edge] := rfl

/-- A byte is two strobes, one transfer apart (rule R133). -/
theorem strobesOf_byteEvents (c : Cfg) (rs : Bit) (b : Byte) (t : Nat) (edge : Bool) :
    strobesOf (byteEvents c rs b t edge) = [transferStrobe c rs (highNibble b) t edge,
      transferStrobe c rs (lowNibble b) (t + Cfg.transferCost c) true] := by
  show strobesOf (transferEvents c rs (highNibble b) t edge ++ _) = _
  rw [strobesOf_append, strobesOf_transferEvents, strobesOf_transferEvents, List.singleton_append]

/-- A strobe record with both its ticks `d` later. -/
def StrobeRec.shift (d : Nat) (r : StrobeRec) : StrobeRec := { r with rise := r.rise + d, fall := r.fall + d }

theorem transferStrobe_shift (c : Cfg) (rs : Bit) (n : Nibble) (t d : Nat) (edge : Bool) :
    (transferStrobe c rs n t edge).shift d = transferStrobe c rs n (t + d) edge := by
  simp only [transferStrobe, StrobeRec.shift, StrobeRec.mk.injEq, true_and, and_true]
  omega

/-- `LCDCMD b` from a ready state with E low. -/
theorem exec_lcdcmd_sent {s t : State} {b : Byte} (hs : LcdReady s false) (h : exec (.lcdcmd b) s = .next t) :
    LcdSent s t false (lowNibble b) (2 * Cfg.transferCost s.params.cfg)
      (byteEvents s.params.cfg false b s.now true) := by
  obtain ⟨t', ht', _, _, hsent⟩ := lcdByteOperationsSendTwoTransfers s false b hs (.lcdcmd b) false (.inl ⟨rfl, rfl⟩)
  obtain rfl : t = t' := by simpa using h.symm.trans ht'
  exact hsent

/-- Settles O23: the first command leaves the machine ready with E low, so the second is the first, later. -/
theorem repeatedCommandSendsSameTransfers : Obligations.RepeatedCommandSendsSameTransfers := by
  intro s t u b hs ht hu
  have hfirst := exec_lcdcmd_sent hs ht
  have hsecond := exec_lcdcmd_sent (hfirst.ready hs) hu
  rw [hfirst.params_eq, hfirst.now_eq] at hsecond
  refine ⟨_, _, by rw [hfirst.trace_eq, strobesOf_append], by rw [hsecond.trace_eq, strobesOf_append], ?_, ?_⟩
  · rw [strobesOf_byteEvents]
    rfl
  · show _ = List.map (StrobeRec.shift (2 * Cfg.transferCost s.params.cfg)) _
    rw [strobesOf_byteEvents, strobesOf_byteEvents, List.map_cons, List.map_cons, List.map_nil, transferStrobe_shift,
      transferStrobe_shift, Nat.add_right_comm]

end Sys2Proof.Machine
end

section
/-! PROOFS. What every step keeps of the latches, the time and the trace (10_state.md rule R36; 41_lcd.md rules R132, R144; 70_reset_and_hazards.md rules R244 to R246): the argument for any such property once, then time order, strobe timing, rising edges, and the strobes of a run. -/

namespace Sys2Proof.Machine

/-! ### Properties of latches, time and trace -/

/-- `P` speaks of the latches, the time, the trace and the parameters alone, and what the operations are made of keeps
it; of the writes to E only those of a strobe are among that. -/
structure KeptByActions (P : State → Prop) : Prop where
  congr : ∀ {s t : State}, P s → t.now = s.now → t.out = s.out → t.trace = s.trace → t.params = s.params → P t
  dir : ∀ {s : State} (p : PortBit) (d : Direction), P s → P (s.emit (.dir p d s.now))
  sample : ∀ {s : State} (p : PortBit) (v : Bit), P s → P (s.emit (.read p v s.now))
  write : ∀ {s : State} {p : PortBit} (v : Bit), p ≠ s.params.cfg.pinE → P s → P (s.pinWrite p v)
  delay : ∀ {s : State} (d : Nat), P s → P (s.delay d)
  strobe : ∀ {s t : State}, strobe s = .next t → P s → P t

/-- `P` outlasts a write to E by the operation that `s` fetches. -/
def KeptByPinoutE (P : State → Prop) (s : State) : Prop :=
  ∀ (l : Bit) (u : State), s.rxs = .none → s.fetchWord = some (encode (.pinout s.params.cfg.pinE l)) →
    u.params = s.params → P u → P (u.pinWrite s.params.cfg.pinE l)

section
variable {P : State → Prop} (hP : KeptByActions P)
include hP

theorem KeptByActions.pinDir {s : State} (p : PortBit) (d : Direction) (h : P s) : P (s.pinDir p d) :=
  hP.congr (hP.dir p d h) rfl rfl rfl rfl

theorem KeptByActions.pinRead {s : State} (p : PortBit) (h : P s) : P (s.pinRead p) := hP.sample p s.rxLevel h

theorem KeptByActions.advance {s : State} (h : P s) : P s.advance := hP.congr h rfl rfl rfl rfl

theorem KeptByActions.raiseFault {s : State} (c : FaultCode) (info : Nat) (h : P s) : P (s.raiseFault c info) :=
  hP.congr h rfl rfl rfl rfl

theorem KeptByActions.busRun {s t : State} (hrun : BusRun s t) (hd : s.params.cfg.pins.Nodup) (h : P s) : P t := by
  induction hrun with
  | refl s => exact h
  | write v _ hE _ ih => exact ih hd (hP.write v (hE.resolve_right (not_not_intro hd)) h)
  | delay d _ ih => exact ih hd (hP.delay d h)
  | strobe hs _ ih => exact ih ((strobe_extends hs).params_eq.symm ▸ hd) (hP.strobe hs h)

theorem KeptByActions.lcdOutcome {s t : State} (hlcd : LcdOutcome s t) (hd : s.params.cfg.pins.Nodup) (h : P s) :
    P t := by
  obtain ⟨p, _, rfl⟩ | ⟨_, u, hu, rfl | ⟨a, rfl⟩⟩ := hlcd
  · exact hP.raiseFault _ _ h
  · exact hP.advance (hP.busRun hu hd h)
  · exact hP.raiseFault _ _ (hP.busRun hu hd h)

theorem KeptByActions.exec {i : Instr} {s t : State} (hexec : exec i s = .next t) (hd : s.params.cfg.pins.Nodup)
    (hE : ∀ (l : Bit) (u : State), i = .pinout s.params.cfg.pinE l → u.params = s.params → P u →
      P (u.pinWrite s.params.cfg.pinE l)) (h : P s) : P t := by
  obtain ⟨p, l, rfl, rfl⟩ | ⟨p, _, rfl⟩ | ⟨sel, _, rfl⟩ | ⟨_, hlcd⟩ | ⟨_, _, rfl⟩ | ⟨_, _, rfl⟩ | ⟨_, _, rfl⟩ |
    ⟨a, _, rfl⟩ := exec_next hexec
  · by_cases hp : p = s.params.cfg.pinE
    · subst hp
      exact hP.advance (hE l _ rfl rfl (hP.pinDir _ _ h))
    · exact hP.advance (hP.write l hp (hP.pinDir _ _ h))
  · exact hP.advance (hP.pinDir _ _ h)
  · exact hP.advance (hP.delay _ h)
  · exact hP.lcdOutcome hlcd hd h
  · exact hP.raiseFault _ _ h
  · exact hP.congr h rfl rfl rfl rfl
  · exact hP.raiseFault _ _ h
  · exact hP.congr h rfl rfl rfl rfl

theorem KeptByActions.rxHunt {s t : State} (hhunt : rxHunt s = .next t) (h : P s) : P t := by
  have hread := hP.pinRead s.params.cfg.pinRX h
  obtain ⟨_, rfl⟩ | ⟨_, rfl⟩ := rxHunt_next hhunt
  · exact hP.delay _ hread
  · exact hP.congr (hP.delay _ (hP.delay _ hread)) rfl rfl rfl rfl

theorem KeptByActions.rxSample {s t : State} (hsample : rxSample s = .next t) (h : P s) : P t := by
  have hbit := hP.delay s.params.cfg.tBit (hP.pinRead s.params.cfg.pinRX h)
  obtain ⟨_, rfl⟩ | ⟨_, b, _, rfl⟩ := rxSample_next hsample
  · exact hP.congr hbit rfl rfl rfl rfl
  · exact hP.congr (hP.delay s.params.cfg.tHalf hbit) rfl rfl rfl rfl

/-- A step keeps what its actions keep. -/
theorem KeptByActions.step {s t : State} (hstep : step s = .next t) (hE : KeptByPinoutE P s) (h : P s) : P t := by
  obtain ⟨hw, _, ⟨_, hhunt⟩ | ⟨_, hsample⟩ | ⟨_, _, rfl⟩ | ⟨_, w, why, _, _, rfl⟩ | ⟨hr, w, i, hfw, hd, hexec⟩⟩ :=
    step_next hstep
  · exact hP.rxHunt hhunt h
  · exact hP.rxSample hsample h
  · exact hP.raiseFault _ _ h
  · exact hP.raiseFault _ _ h
  · refine hP.exec hexec (Params.nodup_pins hw) (fun l u hi => hE l u hr ?_) h
    rw [hfw, ← hi, encode_of_decode hd]


end

/-- What every step keeps holds at the end of a run that starts with it. -/
theorem runFor_keeps {P : State → Prop} (hstep : ∀ s t : State, P s → step s = .next t → P t) :
    ∀ {n : Nat} {s t : State}, P s → runFor n s = .next t → P t
  | 0, s, t, h, hrun => by
    injection hrun with hrun
    exact hrun ▸ h
  | n + 1, s, t, h, hrun => by
    obtain ⟨u, hu, hrest⟩ := andThen_eq_next hrun
    exact runFor_keeps hstep (hstep s u h hu) hrest

/-! ### A strobe, as seen from outside -/

/-- The latches, the time, the trace and the parameters after a strobe (rule R132). -/
theorem strobe_observed {s t : State} (h : strobe s = .next t) :
    ∃ e rs n, s.out.read s.params.cfg.pinE = some e ∧ t.now = s.now + Cfg.transferCost s.params.cfg ∧
      t.trace = s.trace ++
        [.write s.params.cfg.pinE true (s.now + s.params.cfg.tSetup),
         .write s.params.cfg.pinE false (s.now + s.params.cfg.tSetup + s.params.cfg.tStrobe),
         .strobe rs n (s.now + s.params.cfg.tSetup) (s.now + s.params.cfg.tSetup + s.params.cfg.tStrobe) (!e)] ∧
      t.out.read s.params.cfg.pinE = some false ∧ t.params = s.params := by
  obtain ⟨e, rs, n, he, hnow, htrace, hout, _, _, _, _, _, _, _, hparams⟩ := strobe_eq_next h
  exact ⟨e, rs, n, he, hnow, htrace, by rw [hout, Port.read_write_self], hparams⟩

/-! ### Time -/

/-- A tick that has passed stays passed (rule R36). -/
theorem keptByActions_now (n : Nat) : KeptByActions fun s => n ≤ s.now where
  congr h hnow _ _ _ := hnow ▸ h
  dir _ _ h := h
  sample _ _ h := h
  write _ _ h := h
  delay d h := Nat.le_add_right_of_le h
  strobe hs h := by
    obtain ⟨_, _, _, _, hnow, _⟩ := strobe_observed hs
    exact hnow ▸ Nat.le_add_right_of_le h

theorem step_now_le {s t : State} (h : step s = .next t) : s.now ≤ t.now :=
  (keptByActions_now s.now).step h (fun _ _ _ _ _ hu => hu) (Nat.le_refl _)

/-- Settles O38. -/
theorem timeNeverGoesBack : Obligations.TimeNeverGoesBack := by
  refine ⟨fun _ => rfl, fun _ _ => step_now_le, fun s t i hi h => ?_⟩
  obtain rfl | ⟨p, l, a, rfl | rfl | rfl⟩ := hi
  · obtain ⟨_, rfl⟩ | ⟨_, rfl⟩ := execRxbyte_next h <;> rfl
  all_goals
    injection h with h
    subst h
    rfl

/-! ### Time order -/

/-- Events in order, none before `now`, may be added to a trace in order. -/
theorem TimeOrdered.append {s t : State} {es : List Event} (h : TimeOrdered s) (htrace : t.trace = s.trace ++ es)
    (hnow : s.now ≤ t.now) (hes : es.Pairwise fun a b => a.stamp ≤ b.stamp)
    (hbetween : ∀ e ∈ es, s.now ≤ e.stamp ∧ e.stamp ≤ t.now) : TimeOrdered t where
  ordered := by
    rw [htrace, List.pairwise_append]
    exact ⟨h.ordered, hes, fun a ha b hb => (h.past a ha).trans (hbetween b hb).1⟩
  past := by
    rw [htrace, List.forall_mem_append]
    exact ⟨fun e he => (h.past e he).trans hnow, fun e he => (hbetween e he).2⟩

/-- An event of the current tick. -/
theorem TimeOrdered.append_now {s t : State} {e : Event} (h : TimeOrdered s) (htrace : t.trace = s.trace ++ [e])
    (hnow : t.now = s.now) (he : e.stamp = s.now) : TimeOrdered t :=
  h.append htrace hnow.ge (List.pairwise_singleton _ e) (by simp [he, hnow])

theorem keptByActions_timeOrdered : KeptByActions TimeOrdered where
  congr h hnow _ htrace _ := ⟨htrace ▸ h.ordered, by rw [htrace, hnow]; exact h.past⟩
  dir _ _ h := h.append_now rfl rfl rfl
  sample _ _ h := h.append_now rfl rfl rfl
  write _ _ h := h.append_now rfl rfl rfl
  delay d h := ⟨h.ordered, fun e he => Nat.le_add_right_of_le (h.past e he)⟩
  strobe hs h := by
    obtain ⟨_, _, _, _, hnow, htrace, _⟩ := strobe_observed hs
    refine h.append htrace (by omega) ?_ ?_
    · simp [Event.stamp]
    · simp only [List.forall_mem_cons, Event.stamp, hnow, Cfg.transferCost]
      exact ⟨by omega, by omega, by omega, fun _ h => nomatch h⟩

/-- Settles O39: a write to E by `PINOUT` is at the current tick like any other. -/
theorem stepKeepsTimeOrder : Obligations.StepKeepsTimeOrder := fun _ _ h hstep =>
  keptByActions_timeOrdered.step hstep (fun _ _ _ _ _ hu => hu.append_now rfl rfl rfl) h

/-! ### The timing of strobes -/

/-- Where no strobe was added and time went on, strobe timing stays. -/
theorem StrobeTimed.of_strobesOf_eq {s t : State} (h : StrobeTimed s) (hstrobes : strobesOf t.trace = strobesOf s.trace)
    (hnow : s.now ≤ t.now) (hparams : t.params = s.params) : StrobeTimed t where
  width := by rw [hstrobes, hparams]; exact h.width
  spaced := by rw [hstrobes, hparams]; exact h.spaced
  settled r hr := by
    rw [hparams]
    exact (h.settled r (hstrobes ▸ hr)).trans hnow

/-- The strobes of a trace are those before an event that is no strobe. -/
theorem strobesOf_append_singleton {e : Event} (tr : List Event) (he : e.strobe? = none) :
    strobesOf (tr ++ [e]) = strobesOf tr := by
  rw [strobesOf_append, strobesOf, strobesOf, List.filterMap_cons_none he, List.filterMap_nil, List.append_nil]

theorem strobesOf_strobe {s t : State} (h : strobe s = .next t) :
    ∃ e rs n, s.out.read s.params.cfg.pinE = some e ∧
      strobesOf t.trace = strobesOf s.trace ++ [transferStrobe s.params.cfg rs n s.now (!e)] := by
  obtain ⟨e, rs, n, he, _, htrace, _⟩ := strobe_observed h
  exact ⟨e, rs, n, he, by rw [htrace, strobesOf_append]; rfl⟩

/-- A strobe comes `T_SETUP` after the current tick, and `T_PROC` passes after it (rule R132). -/
theorem strobe_strobeTimed {s t : State} (hs : strobe s = .next t) (h : StrobeTimed s) : StrobeTimed t := by
  obtain ⟨_, _, _, _, hnow, _, _, hparams⟩ := strobe_observed hs
  obtain ⟨e, rs, n, _, hstrobes⟩ := strobesOf_strobe hs
  refine ⟨?_, ?_, ?_⟩
  · rw [hstrobes, hparams, List.forall_mem_append]
    exact ⟨h.width, List.forall_mem_singleton.mpr rfl⟩
  · rw [hstrobes, hparams, List.pairwise_append]
    refine ⟨h.spaced, List.pairwise_singleton _ _, fun a ha b hb => ?_⟩
    obtain rfl := List.mem_singleton.mp hb
    exact Nat.add_le_add_right (h.settled a ha) _
  · rw [hstrobes, hparams, hnow, List.forall_mem_append, List.forall_mem_singleton]
    refine ⟨fun r hr => Nat.le_add_right_of_le (h.settled r hr), ?_⟩
    simp only [transferStrobe, Cfg.transferCost]
    omega

theorem keptByActions_strobeTimed : KeptByActions StrobeTimed where
  congr h hnow _ htrace hparams := h.of_strobesOf_eq (by rw [htrace]) hnow.ge hparams
  dir _ _ h := h.of_strobesOf_eq (strobesOf_append_singleton _ rfl) (Nat.le_refl _) rfl
  sample _ _ h := h.of_strobesOf_eq (strobesOf_append_singleton _ rfl) (Nat.le_refl _) rfl
  write _ _ h := h.of_strobesOf_eq (strobesOf_append_singleton _ rfl) (Nat.le_refl _) rfl
  delay _ h := h.of_strobesOf_eq rfl (Nat.le_add_right _ _) rfl
  strobe hs h := strobe_strobeTimed hs h

/-- Settles O40: a `PINOUT` of E adds no strobe record. -/
theorem stepKeepsStrobeTiming : Obligations.StepKeepsStrobeTiming := fun _ _ h hstep =>
  keptByActions_strobeTimed.step hstep
    (fun _ _ _ _ _ hu => hu.of_strobesOf_eq (strobesOf_append_singleton _ rfl) (Nat.le_refl _) rfl) h

/-! ### Rising edges -/

/-- Where no strobe was added and E's latch is not high, the edges stay. -/
theorem EdgesRise.of_strobesOf_eq {s t : State} (h : EdgesRise s) (hstrobes : strobesOf t.trace = strobesOf s.trace)
    (hE : t.out.read t.params.cfg.pinE ≠ some true) : EdgesRise t :=
  ⟨hstrobes ▸ h.rose, hE⟩

theorem keptByActions_edgesRise : KeptByActions EdgesRise where
  congr h _ hout htrace hparams := h.of_strobesOf_eq (by rw [htrace]) (by rw [hout, hparams]; exact h.eLow)
  dir _ _ h := h.of_strobesOf_eq (strobesOf_append_singleton _ rfl) h.eLow
  sample _ _ h := h.of_strobesOf_eq (strobesOf_append_singleton _ rfl) h.eLow
  write v hp h := h.of_strobesOf_eq (strobesOf_append_singleton _ rfl)
    (by rw [pinWrite_out, pinWrite_params, Port.read_write_ne _ _ hp.symm]; exact h.eLow)
  delay _ h := h.of_strobesOf_eq rfl h.eLow
  strobe hs h := by
    obtain ⟨_, _, _, _, _, _, hout, hparams⟩ := strobe_observed hs
    obtain ⟨e, rs, n, he, hstrobes⟩ := strobesOf_strobe hs
    obtain rfl : e = false := Bool.eq_false_of_not_eq_true fun h1 => h.eLow (h1 ▸ he)
    refine ⟨?_, by rw [hparams, hout]; decide⟩
    rw [hstrobes, List.forall_mem_append]
    exact ⟨h.rose, List.forall_mem_singleton.mpr rfl⟩

/-- A step that is no `PINOUT E, 1` keeps the edges: a `PINOUT E, 0` leaves E low. -/
theorem step_edgesRise {s t : State} (h : EdgesRise s) (hE : keepsELow s) (hstep : step s = .next t) : EdgesRise t := by
  refine keptByActions_edgesRise.step hstep (fun l u hr hfw hparams hu => ?_) h
  cases l with
  | true => exact absurd hfw (hE hr)
  | false =>
    refine hu.of_strobesOf_eq (strobesOf_append_singleton _ rfl) ?_
    rw [pinWrite_out, pinWrite_params, hparams, Port.read_write_self]
    decide

/-- Settles O41. -/
theorem stepKeepsEdgesRising : Obligations.StepKeepsEdgesRising := fun _ _ => step_edgesRise

/-! ### Runs from power-on -/

theorem powerOn_timeOrdered (p : Params) : TimeOrdered (State.powerOn p) :=
  ⟨List.Pairwise.nil, nofun⟩

theorem powerOn_strobeTimed (p : Params) : StrobeTimed (State.powerOn p) :=
  ⟨nofun, List.Pairwise.nil, nofun⟩

theorem powerOn_edgesRise (p : Params) : EdgesRise (State.powerOn p) :=
  ⟨nofun, by rw [powerOn_out, Port.read_fill]; exact nofun⟩

theorem runFor_params {n : Nat} {s t : State} (h : runFor n s = .next t) : t.params = s.params :=
  runFor_keeps (P := fun u => u.params = s.params) (fun _ _ hu hstep => (step_extends hstep).params_eq.trans hu) rfl h

theorem run_strobeTimed {p : Params} {n : Nat} {t : State} (h : runFor n (State.powerOn p) = .next t) :
    StrobeTimed t := runFor_keeps stepKeepsStrobeTiming (powerOn_strobeTimed p) h

/-- A program with no `PINOUT E, 1` never runs one. -/
theorem keepsELow_of_not_mem {s : State} (h : encode (.pinout s.params.cfg.pinE true) ∉ s.params.prog) : keepsELow s :=
  fun _ hfw => h (List.mem_of_getElem? hfw)

theorem run_edgesRise {p : Params} {n : Nat} {t : State} (hE : encode (.pinout p.cfg.pinE true) ∉ p.prog)
    (h : runFor n (State.powerOn p) = .next t) : EdgesRise t := by
  have hboth : EdgesRise t ∧ t.params = p :=
    runFor_keeps (P := fun u => EdgesRise u ∧ u.params = p)
      (fun s u ⟨hs, hp⟩ hstep => ⟨step_edgesRise hs (keepsELow_of_not_mem (hp.symm ▸ hE)) hstep,
        (step_extends hstep).params_eq.trans hp⟩)
      ⟨powerOn_edgesRise p, rfl⟩ h
  exact hboth.1

/-- What stands between any two strobes stands between neighbours. -/
theorem StrobeTimed.gap {s : State} (h : StrobeTimed s) {i : Nat} {a b : StrobeRec}
    (ha : (strobesOf s.trace)[i]? = some a) (hb : (strobesOf s.trace)[i + 1]? = some b) :
    a.fall + s.params.cfg.tProc + s.params.cfg.tSetup ≤ b.rise := by
  obtain ⟨hi, rfl⟩ := List.getElem?_eq_some_iff.mp ha
  obtain ⟨hj, rfl⟩ := List.getElem?_eq_some_iff.mp hb
  exact List.pairwise_iff_getElem.mp h.spaced i (i + 1) hi hj (Nat.lt_succ_self i)

/-- Settles O42: the invariants at the end of the run. -/
theorem runsFollowLcdProtocol : Obligations.RunsFollowLcdProtocol := by
  intro p n t hrun
  have hparams : t.params = p := runFor_params hrun
  have htimed := run_strobeTimed hrun
  have hwidths : p.cfg.tStrobeMin ≤ p.cfg.tStrobe → ∀ r ∈ strobesOf t.trace, r.rise + p.cfg.tStrobeMin ≤ r.fall := by
    intro hmin r hr
    rw [htimed.width r hr, hparams]
    exact Nat.add_le_add_left hmin _
  have hgaps : p.cfg.tProcMin ≤ p.cfg.tProc → ∀ (i : Nat) (a b : StrobeRec), (strobesOf t.trace)[i]? = some a →
      (strobesOf t.trace)[i + 1]? = some b → a.fall + p.cfg.tProcMin ≤ b.rise := by
    intro hmin i a b ha hb
    have hgap := htimed.gap ha hb
    rw [hparams] at hgap
    omega
  have hedges : encode (.pinout p.cfg.pinE true) ∉ p.prog → ∀ r ∈ strobesOf t.trace, r.edge = true :=
    fun hE => (run_edgesRise hE hrun).rose
  exact ⟨hwidths, hgaps, hedges, fun hw hg hE => ⟨hedges hE, hwidths hw, hgaps hg⟩⟩

end Sys2Proof.Machine
end

section
/-! PROOFS. Who samples a pin, writes a receiver register or a direction (10_state.md rules R32 to R34, R41; 40_gpio_timing.md rules R111, R112; 42_uart_rx.md rule R170). -/

namespace Sys2Proof.Machine

/-! ### Samples -/

/-- From `s` to `t` events were added, and none of them is a sample. -/
def AddsNoSample (s t : State) : Prop := ∃ es, t.trace = s.trace ++ es ∧ ∀ ev ∈ es, ev.isRead = false

theorem addsNoSample_of_trace_eq {s t : State} (h : t.trace = s.trace) : AddsNoSample s t :=
  ⟨[], h.trans (List.append_nil _).symm, nofun⟩

theorem LcdFrame.addsNoSample {s t : State} (h : LcdFrame s t) : AddsNoSample s t := by
  obtain ⟨es, htrace, hall⟩ := h.events
  exact ⟨es, htrace, fun ev hev => (hall ev hev).1⟩

/-- No operation samples, the entry of `RXBYTE` included (rule R161). -/
theorem exec_addsNoSample {i : Instr} {s t : State} (h : exec i s = .next t) : AddsNoSample s t := by
  obtain ⟨p, l, _, rfl⟩ | ⟨p, _, rfl⟩ | ⟨sel, _, rfl⟩ | ⟨_, hlcd⟩ | ⟨_, _, rfl⟩ | ⟨_, _, rfl⟩ | ⟨_, _, rfl⟩ |
    ⟨a, _, rfl⟩ := exec_next h
  · exact ⟨[.dir p .output s.now, .write p l s.now], by simp, by simp [Event.isRead]⟩
  · exact ⟨[.dir p .input s.now], rfl, by simp [Event.isRead]⟩
  · exact addsNoSample_of_trace_eq rfl
  · exact hlcd.lcdFrame.addsNoSample
  all_goals exact addsNoSample_of_trace_eq rfl

theorem rxHunt_trace {s t : State} (h : rxHunt s = .next t) :
    t.trace = s.trace ++ [.read s.params.cfg.pinRX s.rxLevel s.now] := by
  obtain ⟨_, rfl⟩ | ⟨_, rfl⟩ := rxHunt_next h <;> rfl

theorem rxSample_trace {s t : State} (h : rxSample s = .next t) :
    t.trace = s.trace ++ [.read s.params.cfg.pinRX s.rxLevel s.now] := by
  obtain ⟨_, rfl⟩ | ⟨_, b, _, rfl⟩ := rxSample_next h <;> rfl

/-- Settles O32: one clause per kind of step. -/
theorem onlyMicroStepsSample : Obligations.OnlyMicroStepsSample := by
  intro s t h
  obtain ⟨_, _, ⟨hr, hhunt⟩ | ⟨hr, hsample⟩ | ⟨hr, _, rfl⟩ | ⟨hr, w, why, _, _, rfl⟩ | ⟨hr, w, i, _, _, hexec⟩⟩ :=
    step_next h
  · exact ⟨fun h0 => (nomatch hr.symm.trans h0), fun _ => rxHunt_trace hhunt⟩
  · exact ⟨fun h0 => (nomatch hr.symm.trans h0), fun _ => rxSample_trace hsample⟩
  · exact ⟨fun _ => addsNoSample_of_trace_eq rfl, fun h0 => absurd hr h0⟩
  · exact ⟨fun _ => addsNoSample_of_trace_eq rfl, fun h0 => absurd hr h0⟩
  · exact ⟨fun _ => exec_addsNoSample hexec, fun h0 => absurd hr h0⟩

/-! ### The receiver's registers -/

/-- Every operation but `RXBYTE` leaves the receiver's registers alone. -/
theorem exec_receiver_frame {i : Instr} {s t : State} (hi : i ≠ .rxbyte) (h : exec i s = .next t) :
    t.rxd = s.rxd ∧ t.rxs = s.rxs ∧ t.rxk = s.rxk ∧ t.acc = s.acc := by
  obtain ⟨p, l, _, rfl⟩ | ⟨p, _, rfl⟩ | ⟨sel, _, rfl⟩ | ⟨_, hlcd⟩ | ⟨_, _, rfl⟩ | ⟨h0, _, _⟩ | ⟨h0, _, _⟩ |
    ⟨a, _, rfl⟩ := exec_next h
  case inr.inr.inr.inl => exact ⟨hlcd.lcdFrame.rxd_eq, hlcd.lcdFrame.rxs_eq, hlcd.lcdFrame.rxk_eq, hlcd.lcdFrame.acc_eq⟩
  case inr.inr.inr.inr.inr.inl | inr.inr.inr.inr.inr.inr.inl => exact absurd h0 hi
  all_goals exact ⟨rfl, rfl, rfl, rfl⟩

theorem rxHunt_rxd {s t : State} (h : rxHunt s = .next t) : t.rxd = s.rxd := by
  obtain ⟨_, rfl⟩ | ⟨_, rfl⟩ := rxHunt_next h <;> rfl

/-- Only the sample of bit 7 writes `rxd` (rule R164). -/
theorem rxSample_rxd {s t : State} (h : rxSample s = .next t) (hk : s.rxk ≠ 7) : t.rxd = s.rxd := by
  obtain ⟨_, rfl⟩ | ⟨h7, _⟩ := rxSample_next h
  · rfl
  · exact absurd h7 hk

/-- Settles O34. -/
theorem receiverRegistersWritten : Obligations.ReceiverRegistersWritten := by
  intro s t h
  obtain ⟨_, _, ⟨hr, hhunt⟩ | ⟨hr, hsample⟩ | ⟨hr, _, rfl⟩ | ⟨hr, w, why, _, _, rfl⟩ | ⟨hr, w, i, hfw, hd, hexec⟩⟩ :=
    step_next h
  · exact ⟨fun h0 => (nomatch hr.symm.trans h0), fun _ hne => absurd (rxHunt_rxd hhunt) hne⟩
  · exact ⟨fun h0 => (nomatch hr.symm.trans h0), fun _ hne =>
      ⟨hr, by_contra fun hk => hne (rxSample_rxd hsample hk)⟩⟩
  · exact ⟨fun _ _ => ⟨rfl, rfl, rfl, rfl⟩, fun h0 => absurd hr h0⟩
  · exact ⟨fun _ _ => ⟨rfl, rfl, rfl, rfl⟩, fun h0 => absurd hr h0⟩
  · refine ⟨fun _ hword => exec_receiver_frame (fun hi => hword ?_) hexec, fun h0 => absurd hr h0⟩
    rw [← hi, encode_of_decode hd]
    exact hfw

/-! ### Directions -/

/-- An operation that changes a direction is the `PINOUT` or `PININ` of that port bit (rules R115, R116). -/
theorem exec_dir_changed {i : Instr} {s t : State} {p : PortBit} (h : exec i s = .next t)
    (hne : t.dir.read p ≠ s.dir.read p) :
    (∃ l, i = .pinout p l ∧ t.dir.read p = some .output) ∨ (i = .pinin p ∧ t.dir.read p = some .input) := by
  obtain ⟨q, l, rfl, rfl⟩ | ⟨q, rfl, rfl⟩ | ⟨sel, _, rfl⟩ | ⟨_, hlcd⟩ | ⟨_, _, rfl⟩ | ⟨_, _, rfl⟩ | ⟨_, _, rfl⟩ |
    ⟨a, _, rfl⟩ := exec_next h
  · have hpq : p = q := by_contra fun hpq => hne (Port.read_write_ne _ _ hpq)
    subst hpq
    exact .inl ⟨l, rfl, Port.read_write_self _ _ _⟩
  · have hpq : p = q := by_contra fun hpq => hne (Port.read_write_ne _ _ hpq)
    subst hpq
    exact .inr ⟨rfl, Port.read_write_self _ _ _⟩
  case inr.inr.inr.inl => exact absurd (by rw [hlcd.lcdFrame.dir_eq]) hne
  all_goals exact absurd rfl hne

theorem rxHunt_dir {s t : State} (h : rxHunt s = .next t) : t.dir = s.dir := by
  obtain ⟨_, rfl⟩ | ⟨_, rfl⟩ := rxHunt_next h <;> rfl

theorem rxSample_dir {s t : State} (h : rxSample s = .next t) : t.dir = s.dir := by
  obtain ⟨_, rfl⟩ | ⟨_, b, _, rfl⟩ := rxSample_next h <;> rfl

/-- Settles O35. -/
theorem directionWritten : Obligations.DirectionWritten := by
  intro s t p h hne
  obtain ⟨_, _, ⟨_, hhunt⟩ | ⟨_, hsample⟩ | ⟨_, _, rfl⟩ | ⟨_, w, why, _, _, rfl⟩ | ⟨hr, w, i, hfw, hd, hexec⟩⟩ :=
    step_next h
  · exact absurd (by rw [rxHunt_dir hhunt]) hne
  · exact absurd (by rw [rxSample_dir hsample]) hne
  · exact absurd rfl hne
  · exact absurd rfl hne
  · refine ⟨hr, w, hfw, ?_⟩
    obtain ⟨l, rfl, hout⟩ | ⟨rfl, hin⟩ := exec_dir_changed hexec hne
    · exact .inl ⟨l, hd, hout⟩
    · exact .inr ⟨hd, hin⟩

end Sys2Proof.Machine
end

section
/-! PROOFS. The faults of a step (60_exceptions.md rules R211 to R213): which operation raises which code and for what cause, and what the record and the state then hold. -/

namespace Sys2Proof.Machine

/-! ### Faults of operations -/

/-- The operation `i` raises a fault of this code in `s` and leads to `t`: the rows of the table of rule R211 that an
operation raises, each with its cause. -/
inductive ExecRaises (i : Instr) (s t : State) : FaultCode → Prop where
  | dirOut (p : PortBit) (hi : isLcd i = true) (hr : i = .lcdchrr → s.rxd ≠ none) (hp : s.lcdCheck = some p)
      (ht : t = s.raiseFault .dirOut p.val) : ExecRaises i s t .dirOut
  | dirIn (hi : i = .rxbyte) (hd : s.dir.read s.params.cfg.pinRX ≠ some .input)
      (ht : t = s.raiseFault .dirIn s.params.cfg.pinRX.val) : ExecRaises i s t .dirIn
  | unwritten (hi : i = .lcdchrr) (hr : s.rxd = none) (ht : t = s.raiseFault .unwritten 0) : ExecRaises i s t .unwritten
  | romRange (a : Byte) (u : State) (info : Nat) (hi : i = .lcdstr a)
      (hd : ∀ p ∈ lcdPins s.params.cfg, s.dir.read p = some .output)
      (hrom : ∀ x, a.toNat ≤ x → x < 256 → s.params.rom.read x ≠ 0) (hu : BusRun s u)
      (ht : t = u.raiseFault .romRange info) : ExecRaises i s t .romRange

/-- An LCD operation that ends with `pc` moved on raises nothing but `F_DIR_OUT`, at its entry. -/
theorem lcdCheck_of_finish_faults {s t : State} {k : State → Result}
    (h : withLcdCheck s (fun s => andThen (k s) finish) = .next t) (hk : ∀ u, k s = .next u → BusRun s u)
    (hf : s.fault = none) (ht : t.fault ≠ none) : ∃ p, s.lcdCheck = some p ∧ t = s.raiseFault .dirOut p.val := by
  obtain hcheck | ⟨_, h⟩ := withLcdCheck_eq_next h
  · exact hcheck
  · obtain ⟨u, hu, hend⟩ := andThen_eq_next h
    obtain ⟨_, _, _, _, _, _, hfault, _⟩ := (hk u hu).frame
    injection hend with hend
    exact absurd (by rw [← hend, advance_fault, hfault, hf]) ht

theorem execLcdstr_raises {a : Byte} {s t : State} (h : exec (.lcdstr a) s = .next t) (hf : s.fault = none)
    (ht : t.fault ≠ none) : ∃ c, ExecRaises (.lcdstr a) s t c := by
  have ha := a.isLt
  obtain ⟨p, hp, hcheck⟩ | ⟨hd, h⟩ := withLcdCheck_eq_next h
  · exact ⟨_, .dirOut p rfl nofun hp hcheck⟩
  · obtain ⟨u, hu, ⟨rfl, _⟩ | ⟨⟨info, hend⟩, hrom⟩⟩ := sendString_next (Nat.sub_le _ _) h
    · obtain ⟨_, _, _, _, _, _, hfault, _⟩ := hu.frame
      exact absurd (by rw [advance_fault, hfault, hf]) ht
    · rw [show 256 - (256 - a.toNat) = a.toNat from Nat.sub_sub_self ha.le] at hrom
      exact ⟨_, .romRange a u info rfl hd hrom hu hend⟩

/-- An operation that leads to a recorded fault raised it, and for its cause (rule R211). -/
theorem exec_raises {i : Instr} {s t : State} (h : exec i s = .next t) (hf : s.fault = none) (ht : t.fault ≠ none) :
    ∃ c, ExecRaises i s t c := by
  have checked {k : State → Result} (h : withLcdCheck s (fun s => andThen (k s) finish) = .next t)
      (hk : ∀ u, k s = .next u → BusRun s u) (hi : isLcd i = true) (hr : i = .lcdchrr → s.rxd ≠ none) :
      ∃ c, ExecRaises i s t c := by
    obtain ⟨p, hp, hcheck⟩ := lcdCheck_of_finish_faults h hk hf ht
    exact ⟨_, .dirOut p hi hr hp hcheck⟩
  cases i with
  | pinout p l | pinin p | delay sel | jmp a =>
    injection h with h
    exact absurd (h ▸ hf) ht
  | lcdcmd1 b => exact checked h (fun _ => send1_busRun) rfl nofun
  | lcdcmd b | lcdchr b => exact checked h (fun _ => send2_busRun) rfl nofun
  | lcdchrr =>
    cases hr : s.rxd with
    | none =>
      rw [exec_lcdchrr_of_unwritten hr] at h
      injection h with h
      exact ⟨_, .unwritten rfl hr h.symm⟩
    | some b =>
      rw [exec_lcdchrr_of_written hr] at h
      exact checked h (fun _ => send2_busRun) rfl fun _ h0 => nomatch hr.symm.trans h0
  | lcdstr a => exact execLcdstr_raises h hf ht
  | lcdinit =>
    exact checked (k := fun s => sendAll (initSends s.params.cfg) (s.delay s.params.cfg.tPwrup)) h
      (fun _ hu => .delay _ (sendAll_busRun hu)) rfl nofun
  | rxbyte =>
    obtain ⟨_, rfl⟩ | ⟨hd, hend⟩ := execRxbyte_next h
    · exact absurd hf ht
    · exact ⟨_, .dirIn rfl hd hend⟩

/-! ### Faults of steps -/

/-- The step from `s` raises a fault of this code and leads to `t`: all rows of the table of rule R211. -/
inductive StepRaises (s t : State) : FaultCode → Prop where
  | pcRange (hfw : s.fetchWord = none) (ht : t = s.raiseFault .pcRange s.pc) : StepRaises s t .pcRange
  | illegal (w : Word16) (why : IllegalWord) (hfw : s.fetchWord = some w) (hd : decode w = .illegal why)
      (ht : t = s.raiseFault .illegal w.toNat) : StepRaises s t .illegal
  | exec (w : Word16) (i : Instr) {c : FaultCode} (hfw : s.fetchWord = some w) (hd : decode w = .op i)
      (hc : ExecRaises i s t c) : StepRaises s t c

/-- A step that leads to a recorded fault raised it, outside a receive. -/
theorem step_raises {s t : State} (h : step s = .next t) (ht : t.fault ≠ none) :
    s.rxs = .none ∧ ∃ c, StepRaises s t c := by
  obtain ⟨_, hf, ⟨_, hhunt⟩ | ⟨_, hsample⟩ | ⟨hr, hfw, hend⟩ | ⟨hr, w, why, hfw, hd, hend⟩ |
    ⟨hr, w, i, hfw, hd, hexec⟩⟩ := step_next h
  · refine absurd ?_ ht
    obtain ⟨_, rfl⟩ | ⟨_, rfl⟩ := rxHunt_next hhunt <;> exact hf
  · exact absurd ((rxSample_fault hsample).trans hf) ht
  · exact ⟨hr, _, .pcRange hfw hend⟩
  · exact ⟨hr, _, .illegal w why hfw hd hend⟩
  · obtain ⟨c, hc⟩ := exec_raises hexec hf ht
    exact ⟨hr, c, .exec w i hfw hd hc⟩

/-- The state after a fault: the shared operation on the state before, or for `F_ROM_RANGE` on one that bus actions
lead to (rule R212). -/
theorem StepRaises.end_eq {s t : State} {c : FaultCode} (h : StepRaises s t c) :
    ∃ u info, BusRun s u ∧ (c ≠ .romRange → u = s) ∧ t = u.raiseFault c info := by
  cases h with
  | pcRange _ ht | illegal _ _ _ _ ht => exact ⟨s, _, .refl s, fun _ => rfl, ht⟩
  | exec w i _ _ hc =>
    cases hc with
    | dirOut _ _ _ _ ht | dirIn _ _ ht | unwritten _ _ ht => exact ⟨s, _, .refl s, fun _ => rfl, ht⟩
    | romRange a u info _ _ _ hu ht => exact ⟨u, info, hu, fun hne => absurd rfl hne, ht⟩

theorem faultWord_eq (s : State) (c : FaultCode) :
    s.faultWord c = if c = .pcRange then 0 else s.params.prog[s.pc]?.getD 0 := rfl

/-- The record of a fault (rule R212). -/
theorem StepRaises.record_eq {s t : State} {c : FaultCode} {r : FaultRecord} (h : StepRaises s t c)
    (hr : t.fault = some r) : r = ⟨c, s.pc, s.faultWord c⟩ := by
  obtain ⟨u, info, hu, _, rfl⟩ := h.end_eq
  obtain ⟨hpc, _, _, _, _, _, _, hparams⟩ := hu.frame
  rw [raiseFault_fault, Option.some.injEq] at hr
  rw [← hr, faultWord_eq, faultWord_eq, hpc, hparams]

/-! ### The obligations -/

/-- Settles O8: the record and the end state of whatever fault was raised. -/
theorem faultsArePrecise : Obligations.FaultsArePrecise := by
  intro s t r h hr
  obtain ⟨_, c, hc⟩ := step_raises h (by simp [hr])
  have hrecord := hc.record_eq hr
  obtain ⟨u, info, hu, hsame, rfl⟩ := hc.end_eq
  obtain ⟨hpc, hdir, hrxd, hrxs, hrxk, hacc, _, hparams⟩ := hu.frame
  subst hrecord
  refine ⟨rfl, hpc, faultWord_eq s c, fun hne => ?_, fun _ => ?_⟩
  · rw [hsame hne]
    rfl
  · exact ⟨(step_extends h).trace_prefix, step_now_le h, hdir, hrxd, hrxs, hrxk, hacc, hparams⟩

/-- Settles O9: cause by cause. -/
theorem faultsComeFromNamedOperations : Obligations.FaultsComeFromNamedOperations := by
  intro s t r h hr
  obtain ⟨hrxs, c, hc⟩ := step_raises h (by simp [hr])
  obtain rfl := hc.record_eq hr
  refine ⟨hrxs, ?_⟩
  cases hc with
  | pcRange hfw _ => exact List.getElem?_eq_none_iff.mp hfw
  | illegal w why hfw hd _ => exact ⟨w, why, hfw, hd⟩
  | exec w i hfw hd hc =>
    cases hc with
    | dirOut p hi hrxd hp _ =>
      refine ⟨w, i, hfw, hd, ?_, p, lcdCheck_eq_some hp⟩
      exact (isLcd_iff.mp hi).imp_left fun hchrr => ⟨hchrr, hrxd hchrr⟩
    | dirIn hi hdir _ => exact ⟨w, hfw, hi ▸ hd, hdir⟩
    | unwritten hi hrxd _ => exact ⟨w, hfw, hi ▸ hd, hrxd⟩
    | romRange a u info hi hout hrom _ _ => exact ⟨w, a, hfw, hi ▸ hd, hout, hrom⟩

end Sys2Proof.Machine
end

section
/-! PROOFS. `RXBYTE` (42_uart_rx.md rules R161 to R168): its entry, its micro-steps, the eight samples, the whole receive, and when a frame is received. -/

namespace Sys2Proof

/-! ### The byte of the accumulator -/

theorem byteOf_bits : ∀ b : Byte, Machine.byteOf (b.getLsbD 7) (b.getLsbD 6) (b.getLsbD 5) (b.getLsbD 4) (b.getLsbD 3)
    (b.getLsbD 2) (b.getLsbD 1) (b.getLsbD 0) = b := by decide

namespace Machine

/-- The byte whose bit `k` is accumulator cell `k` (rule R164). -/
theorem accByte_of_cells {acc : Port (Option Bit)} {b : Byte} (h : ∀ k : Fin 8, acc.read k = some (b.getLsbD k.val)) :
    accByte acc = some b := by
  simp only [accByte, h]
  exact congrArg some (byteOf_bits b)

/-! ### The entry and the micro-steps -/

/-- The state after the entry of `RXBYTE` (rule R161). -/
def State.rxEntry (s : State) : State := { s with rxd := none, acc := Port.fill none, rxs := .hunt }

theorem exec_rxbyte_of_input {s : State} (h : s.dir.read s.params.cfg.pinRX = some .input) :
    exec .rxbyte s = .next s.rxEntry := if_pos h

theorem exec_rxbyte_of_not_input {s : State} (h : s.dir.read s.params.cfg.pinRX ≠ some .input) :
    exec .rxbyte s = .next (s.raiseFault .dirIn s.params.cfg.pinRX.val) := if_neg h

/-- The state after a poll of the hunt that reads 0 (rule R162). -/
def State.startPoll (s : State) : State :=
  { s with
    now := s.now + s.params.cfg.tHalf + s.params.cfg.tBit
    trace := s.trace ++ [.read s.params.cfg.pinRX false s.now]
    rxk := 0
    rxs := .sample }

theorem rxHunt_of_low {s : State} (h : s.rxLevel = false) : rxHunt s = .next s.startPoll := by
  simp [rxHunt, startBitSeen, h, State.startPoll, State.pinRead, State.emit, State.delay]

/-- The state after a sample of a data bit below 7 (rule R163). -/
def State.sampleNext (s : State) : State := { s.sampleBit.delay s.params.cfg.tBit with rxk := s.rxk + 1 }

theorem rxSample_of_ne {s : State} (h : s.rxk ≠ 7) : rxSample s = .next s.sampleNext := if_neg h

/-- The state after the sample of data bit 7, with the byte it completes (rule R164). -/
def State.sampleLast (s : State) (b : Byte) : State :=
  { s with
    pc := s.pc + 1
    now := s.now + s.params.cfg.tBit + s.params.cfg.tHalf
    trace := s.trace ++ [.read s.params.cfg.pinRX s.rxLevel s.now]
    rxd := some b
    rxs := .none
    acc := Port.fill none }

theorem rxSample_of_last {s : State} {b : Byte} (hk : s.rxk = 7)
    (hacc : ∀ k : Fin 8, k ≠ 7 → s.acc.read k = some (b.getLsbD k.val)) (hlevel : s.rxLevel = b.getLsbD 7) :
    rxSample s = .next (s.sampleLast b) := by
  have hbyte : accByte (s.acc.write s.rxk (some s.rxLevel)) = some b := by
    refine accByte_of_cells fun k => ?_
    rw [Port.read_write, hk, hlevel]
    split
    · next h7 => subst h7; rfl
    · next h7 => exact hacc k h7
  rw [rxSample, if_pos hk, rxComplete, delay_acc, delay_acc, sampleBit_acc, hbyte]
  rfl

/-- Settles O24. -/
theorem rxbyteEntry : Obligations.RxbyteEntry := by
  refine fun s => ⟨fun h => ⟨s.rxEntry, exec_rxbyte_of_input h, Port.read_fill none, rfl⟩, fun h => ?_⟩
  rw [exec_rxbyte_of_not_input h, raiseFault_of_ne_pcRange s (by decide)]

/-- Settles O25: one case for each level. -/
theorem huntPoll : Obligations.HuntPoll := by
  intro s hw hf hr
  rw [step_of_hunt hw hf hr]
  cases hlevel : s.rxLevel with
  | true =>
    have hline : s.params.rxLine.level s.now = true := hlevel
    rw [rxHunt_of_high hlevel, if_pos hline, ← idlePoll_trace hlevel]
    rfl
  | false =>
    have hline : ¬ s.params.rxLine.level s.now = true := Bool.not_eq_true _ ▸ hlevel
    rw [rxHunt_of_low hlevel, if_neg hline]
    rfl

/-- Settles O26. -/
theorem sampleDataBit : Obligations.SampleDataBit := by
  intro s hw hf hr hk
  have hne : s.rxk ≠ 7 := fun h => absurd (h ▸ hk) (by decide)
  refine ⟨s.sampleNext, (step_of_sample hw hf hr).trans (rxSample_of_ne hne), fun k => ?_, ?_, rfl⟩
  · exact Port.read_write s.acc s.rxk k _
  · exact Fin.val_add_one_of_lt' (by omega)

/-- Settles O27. -/
theorem lastSampleCompletes : Obligations.LastSampleCompletes := by
  intro s b hw hf hr hk hacc hlevel
  refine ⟨s.sampleLast b, (step_of_sample hw hf hr).trans (rxSample_of_last hk hacc hlevel), Port.read_fill none, ?_⟩
  rw [← hlevel]
  rfl

/-! ### The eight samples -/

/-- The tick of the sample of data bit `k`, in a state that is about to sample bit 0 (rule R166). -/
def State.sampleTick (s : State) (k : Nat) : Nat := s.now + k * s.params.cfg.tBit

/-- The level sampled for data bit `k`. -/
def State.sampleLevel (s : State) (k : Nat) : Bit := s.params.rxLine.level (s.sampleTick k)

/-- The first `k` samples of a receive. -/
def State.sampleEvents (s : State) (k : Nat) : List Event :=
  (List.range k).map fun j => .read s.params.cfg.pinRX (s.sampleLevel j) (s.sampleTick j)

theorem sampleTick_zero (s : State) : s.sampleTick 0 = s.now := by simp [State.sampleTick]

theorem sampleTick_succ (s : State) (k : Nat) : s.sampleTick (k + 1) = s.sampleTick k + s.params.cfg.tBit := by
  rw [State.sampleTick, Nat.succ_mul, ← Nat.add_assoc, State.sampleTick]

theorem sampleEvents_succ (s : State) (k : Nat) :
    s.sampleEvents (k + 1) = s.sampleEvents k ++ [.read s.params.cfg.pinRX (s.sampleLevel k) (s.sampleTick k)] := by
  simp only [State.sampleEvents, List.range_succ, List.map_append, List.map_singleton]

/-- The accumulator after `k` samples: cell `j` below `k` holds the level of data bit `j` (rule R33). -/
def State.accSamples (s : State) (k : Nat) : Port (Option Bit) :=
  Vector.ofFn fun j => if j.val < k then some (s.sampleLevel j.val) else s.acc.read j

theorem accSamples_read (s : State) (k : Nat) (j : Fin 8) :
    (s.accSamples k).read j = if j.val < k then some (s.sampleLevel j.val) else s.acc.read j := by
  simp [State.accSamples, Port.read]

theorem accSamples_succ (s : State) {k : Nat} {i : Fin 8} (hi : i.val = k) :
    (s.accSamples k).write i (some (s.sampleLevel k)) = s.accSamples (k + 1) := by
  refine Port.ext_read fun j => ?_
  rw [Port.read_write, accSamples_read, accSamples_read]
  rcases lt_trichotomy j.val k with h | h | h
  · rw [if_neg (by rintro rfl; omega), if_pos h, if_pos (by omega)]
  · rw [if_pos (Fin.ext (h.trans hi.symm)), if_pos (by omega), h]
  · rw [if_neg (by rintro rfl; omega), if_neg (by omega), if_neg (by omega)]

/-- The state after `k` samples. -/
def State.samples (s : State) (k : Nat) : State :=
  { s with
    now := s.sampleTick k
    rxk := Fin.ofNat 8 k
    acc := s.accSamples k
    trace := s.trace ++ s.sampleEvents k }

theorem samples_zero {s : State} (h : s.rxk = 0) : s.samples 0 = s := by
  have hacc : s.accSamples 0 = s.acc := Port.ext_read fun j => by simp [accSamples_read]
  have hrxk : Fin.ofNat 8 0 = s.rxk := h.symm
  rw [State.samples, hacc, hrxk, sampleTick_zero, State.sampleEvents, List.range_zero, List.map_nil, List.append_nil]

theorem samples_rxk_val {s : State} {k : Nat} (h : k < 8) : (s.samples k).rxk.val = k := Nat.mod_eq_of_lt h

theorem samples_succ {s : State} {k : Nat} (h : k < 7) : (s.samples k).sampleNext = s.samples (k + 1) := by
  have hacc : (s.samples k).acc.write (s.samples k).rxk (some (s.samples k).rxLevel) = s.accSamples (k + 1) :=
    accSamples_succ s (samples_rxk_val (by omega))
  have hrxk : (s.samples k).rxk + 1 = Fin.ofNat 8 (k + 1) := by
    apply Fin.ext
    rw [Fin.val_add_one_of_lt' (by rw [samples_rxk_val] <;> omega), samples_rxk_val (by omega)]
    exact (Nat.mod_eq_of_lt (by omega)).symm
  have htrace : (s.samples k).sampleBit.trace = s.trace ++ s.sampleEvents (k + 1) := by
    rw [sampleEvents_succ, ← List.append_assoc]
    rfl
  unfold State.sampleNext
  rw [hrxk]
  unfold State.samples at *
  rw [sampleTick_succ, ← htrace, ← hacc]
  rfl

/-- Steps in a row, in two parts. -/
theorem runFor_add : ∀ (m n : Nat) (s : State), runFor (m + n) s = andThen (runFor m s) (runFor n)
  | 0, n, s => by rw [Nat.zero_add]; rfl
  | m + 1, n, s => by
    rw [Nat.succ_add, runFor, runFor]
    cases step s with
    | next u => exact runFor_add m n u
    | fault f => rfl
    | refused f => rfl

theorem runFor_one (s : State) : runFor 1 s = step s := by
  rw [runFor]
  cases step s <;> rfl

/-- Steps from the start of sampling, up to the sample of bit 6 (rule R163). -/
theorem runFor_samples {s : State} (hw : s.params.wf = true) (hf : s.fault = none) (hr : s.rxs = .sample)
    (hk : s.rxk = 0) : ∀ {k : Nat}, k ≤ 7 → runFor k s = .next (s.samples k)
  | 0, _ => by rw [samples_zero hk]; rfl
  | k + 1, hle => by
    have hne : (s.samples k).rxk ≠ 7 := fun h => by
      have hval : (7 : Fin 8).val = k := h ▸ samples_rxk_val (by omega)
      exact absurd (hval.trans_lt hle) (by decide)
    rw [runFor_add, runFor_samples hw hf hr hk (by omega), andThen_next, runFor_one,
      step_of_sample (s := s.samples k) hw hf hr, rxSample_of_ne hne, samples_succ hle]

/-- The byte on the line (rule R164). -/
def State.lineByte (s : State) : Byte := BitVec.ofFnLE fun k : Fin 8 => s.sampleLevel k.val

theorem lineByte_getLsbD (s : State) {k : Nat} (hk : k < 8) : s.lineByte.getLsbD k = s.sampleLevel k := by
  rw [State.lineByte, BitVec.getLsbD_ofFnLE, dif_pos hk]

/-- The state after the eight samples (rule R164). -/
def State.received (s : State) : State := (s.samples 7).sampleLast s.lineByte

theorem received_now (s : State) : s.received.now = s.now + 8 * s.params.cfg.tBit + s.params.cfg.tHalf := by
  show s.sampleTick 7 + s.params.cfg.tBit + _ = _
  rw [← sampleTick_succ]
  rfl

theorem received_trace (s : State) : s.received.trace = s.trace ++ s.sampleEvents 8 := by
  rw [sampleEvents_succ, ← List.append_assoc]
  rfl

/-- The eight samples complete the receive. -/
theorem runFor_received {s : State} (hw : s.params.wf = true) (hf : s.fault = none) (hr : s.rxs = .sample)
    (hk : s.rxk = 0) : runFor 8 s = .next s.received := by
  have hacc : ∀ k : Fin 8, k ≠ 7 → (s.samples 7).acc.read k = some (s.lineByte.getLsbD k.val) := fun k h7 => by
    have hlt : k.val < 7 := by omega
    rw [lineByte_getLsbD s k.isLt]
    exact (accSamples_read s 7 k).trans (if_pos hlt)
  have hlevel : (s.samples 7).rxLevel = s.lineByte.getLsbD 7 := (lineByte_getLsbD s (by decide)).symm
  rw [runFor_add 7 1, runFor_samples hw hf hr hk le_rfl, andThen_next, runFor_one,
    step_of_sample (s := s.samples 7) hw hf hr, rxSample_of_last rfl hacc hlevel]
  rfl

/-! ### The whole receive -/

/-- The receive of a hunt whose poll `n` is the first to read 0 (rule R166). -/
theorem runFor_hunt_received {s : State} {n : Nat} (hw : s.params.wf = true) (hf : s.fault = none) (hr : s.rxs = .hunt)
    (hidle : ∀ j < n, s.params.rxLine.level (s.pollTick j) = true)
    (hstart : s.params.rxLine.level (s.pollTick n) = false) :
    runFor (n + 9) s = .next (s.idlePolls n).startPoll.received := by
  have hpoll : step (s.idlePolls n) = .next (s.idlePolls n).startPoll :=
    (step_of_hunt (s := s.idlePolls n) hw hf hr).trans (rxHunt_of_low hstart)
  have hsamples : runFor 8 (s.idlePolls n).startPoll = .next (s.idlePolls n).startPoll.received :=
    runFor_received hw hf rfl rfl
  rw [runFor_add n 9, runFor_of_idle_hunt n hw hf hr hidle, andThen_next, runFor, hpoll, andThen_next, hsamples]

/-- The tick of sample `k` after the first poll that reads 0 (rule R166). -/
theorem sampleTick_startPoll (s : State) (n k : Nat) : (s.idlePolls n).startPoll.sampleTick k =
    s.pollTick n + s.params.cfg.tHalf + (k + 1) * s.params.cfg.tBit := by
  rw [Nat.succ_mul, Nat.add_comm (k * _), ← Nat.add_assoc]
  rfl

/-- The bits of the byte received (rule R166). -/
theorem received_bit (s : State) (n : Nat) {k : Nat} (hk : k < 8) : (s.idlePolls n).startPoll.lineByte.getLsbD k =
    s.params.rxLine.level (s.pollTick n + s.params.cfg.tHalf + (k + 1) * s.params.cfg.tBit) := by
  rw [lineByte_getLsbD _ hk, State.sampleLevel, sampleTick_startPoll]
  rfl

/-- The samples of the byte received (rule R166). -/
theorem sampleEvents_startPoll (s : State) (n k : Nat) : (s.idlePolls n).startPoll.sampleEvents k =
    (List.range k).map fun j => .read s.params.cfg.pinRX
      (s.params.rxLine.level (s.pollTick n + s.params.cfg.tHalf + (j + 1) * s.params.cfg.tBit))
      (s.pollTick n + s.params.cfg.tHalf + (j + 1) * s.params.cfg.tBit) := by
  simp only [State.sampleEvents, State.sampleLevel, sampleTick_startPoll]
  rfl

/-- Settles O29: the entry step, the polls, the samples. -/
theorem receiveSamplesTheLine : Obligations.ReceiveSamplesTheLine := by
  intro s n td hw hf hr hfw hin hidle htd hstart
  subst htd
  have hentry : step s = .next s.rxEntry :=
    (step_eq_exec hw hf hr hfw (decode_encode _)).trans (exec_rxbyte_of_input hin)
  have hrun : runFor (n + 10) s = .next (s.rxEntry.idlePolls n).startPoll.received := by
    rw [runFor, hentry, andThen_next, runFor_hunt_received (s := s.rxEntry) hw hf rfl hidle hstart]
  refine ⟨_, _, hrun, rfl, fun k hk => received_bit s.rxEntry n hk, ?_, rfl, rfl, Port.read_fill none, hf, rfl, rfl,
    rfl, ?_⟩
  · rw [received_now]
    show s.pollTick n + s.params.cfg.tHalf + s.params.cfg.tBit + 8 * s.params.cfg.tBit + s.params.cfg.tHalf
      = s.pollTick n + _ + _
    omega
  · rw [received_trace, sampleEvents_startPoll]
    show (s.trace ++ s.idleSamples n) ++ [_] ++ _ = _
    rw [List.append_assoc, List.singleton_append]
    rfl

/-! ### Reception of a frame -/

theorem level_frame (e p : Nat) (b : Byte) (t : Nat) : (Waveform.frame e p b).level t = frameLevel e p b t := by
  have h := frameWaveform [⟨e, p, b⟩] (List.pairwise_singleton _ _) t
  rwa [List.all_cons, List.all_nil, Bool.and_true] at h

/-- The level `x` ticks after the edge, in data cell `k` (rule R93). -/
theorem frameLevel_in_cell {p x k : Nat} (e : Nat) (b : Byte) (hk : k < 8) (hlo : (k + 1) * p ≤ x)
    (hhi : x < (k + 2) * p) : frameLevel e p b (e + x) = b.getLsbD k := by
  have hp : p ≤ x := (Nat.le_mul_of_pos_left p k.succ_pos).trans hlo
  have hend : x < 9 * p := hhi.trans_le (Nat.mul_le_mul_right p (by omega))
  have hcell : x / p = k + 1 := Nat.div_eq_of_lt_le hlo hhi
  rw [frameLevel, if_neg (by omega), if_neg (by omega), if_pos (by omega), Nat.add_sub_cancel_left, hcell,
    Nat.add_sub_cancel]

/-- A tick after the edge that gives bit `k` for the byte 0 and for the byte with bit `k` alone is in data cell `k`. -/
theorem cell_of_frameLevel {e p x k : Nat} (hp : 0 < p) (hzero : frameLevel e p 0 (e + x) = false)
    (hone : frameLevel e p (BitVec.twoPow 8 k) (e + x) = true) : (k + 1) * p ≤ x ∧ x < (k + 2) * p := by
  have hend : x < 9 * p := by
    by_contra hle
    rw [frameLevel, if_neg (by omega), if_neg (by omega), if_neg (by omega)] at hzero
    cases hzero
  have hstart : p ≤ x := by
    by_contra hlt
    rw [frameLevel, if_neg (by omega), if_pos (by omega)] at hone
    cases hone
  rw [frameLevel, if_neg (by omega), if_neg (by omega), if_pos (by omega), Nat.add_sub_cancel_left,
    BitVec.getLsbD_twoPow] at hone
  have hdiv : 0 < x / p := Nat.div_pos hstart hp
  have hcell : x / p = k + 1 := by
    simp only [Bool.and_eq_true, decide_eq_true_eq] at hone
    omega
  exact ⟨(Nat.le_div_iff_mul_le hp).mp hcell.ge, (Nat.div_lt_iff_lt_mul hp).mp (by omega)⟩

/-- A hunt begun before a frame's edge, with its first poll from the edge on in the start cell, receives the levels that
the frame has at the sample ticks (rule R166). -/
theorem runFor_frame {s : State} {e p d n : Nat} (hw : s.params.wf = true) (hf : s.fault = none) (hr : s.rxs = .hunt)
    (hpoll : s.pollTick n = e + d) (hidle : ∀ j < n, s.pollTick j < e) (hd : d < p) (b : Byte) :
    ∃ t c, runFor (n + 9) (s.onLine (Waveform.frame e p b)) = .next t ∧ t.rxd = some c ∧
      ∀ k < 8, c.getLsbD k = frameLevel e p b (e + (d + s.params.cfg.tHalf + (k + 1) * s.params.cfg.tBit)) := by
  have hrun := runFor_hunt_received (s := s.onLine (Waveform.frame e p b)) (n := n) hw hf hr
    (fun j hj => (level_frame e p b _).trans (if_pos (hidle j hj)))
    (by
      show (Waveform.frame e p b).level (s.pollTick n) = false
      rw [level_frame, hpoll, frameLevel, if_neg (by omega), if_pos (by omega)])
  refine ⟨_, _, hrun, rfl, fun k hk => ?_⟩
  rw [received_bit _ n hk]
  show (Waveform.frame e p b).level (s.pollTick n + s.params.cfg.tHalf + (k + 1) * s.params.cfg.tBit) = _
  rw [level_frame, hpoll, Nat.add_assoc e, Nat.add_assoc e]

/-- Settles O30: sample by sample; the byte 0 and the bytes with one bit tell the cells apart. -/
theorem frameReceivedIffSamplesInCells : Obligations.FrameReceivedIffSamplesInCells := by
  intro s e p d n hw hf hr hpoll hidle hd
  have hrun := runFor_frame hw hf hr hpoll hidle hd
  refine ⟨fun h k hk => ?_, fun h b => ?_⟩
  · have hlevel (b : Byte) :
        b.getLsbD k = frameLevel e p b (e + (d + s.params.cfg.tHalf + (k + 1) * s.params.cfg.tBit)) := by
      obtain ⟨t, c, ht, hc, hbits⟩ := hrun b
      obtain ⟨t', ht', hb⟩ := h b
      obtain rfl : t = t' := by simpa using ht.symm.trans ht'
      obtain rfl : b = c := by simpa using hb.symm.trans hc
      exact hbits k hk
    refine cell_of_frameLevel (e := e) (by omega) ?_ ?_
    · rw [← hlevel]
      exact BitVec.getLsbD_zero
    · rw [← hlevel, BitVec.getLsbD_twoPow]
      simp [hk]
  · obtain ⟨t, c, ht, hc, hbits⟩ := hrun b
    obtain rfl : c = b := BitVec.eq_of_getLsbD_eq fun k hk => by
      rw [hbits k hk, frameLevel_in_cell e b hk (h k hk).1 (h k hk).2]
    exact ⟨t, ht, hc⟩

end Machine

end Sys2Proof
end

section
/-! PROOFS. The states that runs reach (10_state.md rules R32 to R35; 41_lcd.md rule R130; 60_exceptions.md rule R212): every step keeps them, power-on is one, and each has a next state until a fault is recorded. -/

namespace Sys2Proof.Machine

/-! ### Latches -/

/-- Every pin that is an output has a written latch (rule R130). -/
def Latched (s : State) : Prop := ∀ p, s.dir.read p = some .output → ∃ v, s.out.read p = some v

theorem exists_read_write {o : Port (Option Bit)} {p : PortBit} (q : PortBit) (v : Bit) (h : ∃ w, o.read p = some w) :
    ∃ w, (o.write q (some v)).read p = some w := by
  rw [Port.read_write]
  split
  · exact ⟨v, rfl⟩
  · exact h

/-- Bus actions leave a written latch written. -/
theorem BusRun.exists_latch {s t : State} (hrun : BusRun s t) {p : PortBit} (h : ∃ w, s.out.read p = some w) :
    ∃ w, t.out.read p = some w := by
  induction hrun with
  | refl s => exact h
  | write v _ _ _ ih => exact ih (exists_read_write _ v h)
  | delay d _ ih => exact ih h
  | strobe hs _ ih =>
    obtain ⟨_, _, _, _, _, _, hout, _⟩ := strobe_eq_next hs
    exact ih (hout ▸ exists_read_write _ false (exists_read_write _ true h))

theorem BusRun.latched {s t : State} (hrun : BusRun s t) (h : Latched s) : Latched t := by
  obtain ⟨_, hdir, _⟩ := hrun.frame
  exact fun p hp => hrun.exists_latch (h p (hdir ▸ hp))

theorem Latched.pinout {s : State} (h : Latched s) (p : PortBit) (l : Bit) :
    Latched ((s.pinDir p .output).pinWrite p l) := by
  intro q hq
  by_cases hqp : q = p
  · exact ⟨l, hqp ▸ Port.read_write_self _ _ _⟩
  · exact exists_read_write p l (h q ((Port.read_write_ne _ _ hqp).symm.trans hq))

theorem Latched.pinin {s : State} (h : Latched s) (p : PortBit) : Latched (s.pinDir p .input) := by
  intro q hq
  rw [pinDir_dir, Port.read_write] at hq
  split at hq
  · cases hq
  · exact h q hq

/-! ### Coherence -/

/-- A coherent state outside a receive. -/
theorem Coherent.of_idle {t : State} (hr : t.rxs = .none) (hacc : ∀ k, t.acc.read k = none) (hlatched : Latched t)
    (hpc : t.pc ≤ 256) (hfault : ∀ r, t.fault = some r → r.pc = t.pc ∧ r.word = t.faultWord r.code) : Coherent t where
  latched := hlatched
  accClear _ := hacc
  accSampled h := nomatch hr.symm.trans h
  rxdCleared h := absurd hr h
  rxInput h := absurd hr h
  rxIndex h := absurd hr h
  pcBound := hpc
  faultFits r h := ⟨(hfault r h).1, (hfault r h).2, hr⟩

/-- A step that does no part of a receive and records no fault. -/
theorem Coherent.idle_step {s t : State} (h : Coherent s) (hr : s.rxs = .none) (hrt : t.rxs = s.rxs)
    (hacc : t.acc = s.acc) (hlatched : Latched t) (hpc : t.pc ≤ 256) (hf : t.fault = none) : Coherent t :=
  .of_idle (hrt.trans hr) (hacc ▸ h.accClear (by simp [hr])) hlatched hpc fun _ h0 => nomatch hf.symm.trans h0

/-- A recorded fault fits the state it is recorded in (rule R212). -/
theorem Coherent.raiseFault {s u : State} (h : Coherent s) (hr : s.rxs = .none) (hrun : BusRun s u) (c : FaultCode)
    (info : Nat) : Coherent (u.raiseFault c info) := by
  obtain ⟨hpc, _, _, hrxs, _, hacc, _, _⟩ := hrun.frame
  refine .of_idle (hrxs.trans hr) (hacc ▸ h.accClear (by simp [hr])) (hrun.latched h.latched)
    (hpc.trans_le h.pcBound) fun r hrec => ?_
  obtain rfl : _ = r := Option.some.inj hrec
  exact ⟨rfl, rfl⟩

theorem Coherent.lcdOutcome {s t : State} (h : Coherent s) (hr : s.rxs = .none) (hf : s.fault = none)
    (hpc : s.pc < 256) (hlcd : LcdOutcome s t) : Coherent t := by
  obtain ⟨p, _, rfl⟩ | ⟨_, u, hu, rfl | ⟨a, rfl⟩⟩ := hlcd
  · exact h.raiseFault hr (.refl s) _ _
  · obtain ⟨hpcu, _, _, hrxs, _, hacc, hfault, _⟩ := hu.frame
    refine h.idle_step hr hrxs hacc (hu.latched h.latched) ?_ (hfault.trans hf)
    rw [advance_pc, hpcu]
    exact hpc
  · exact h.raiseFault hr hu _ _

theorem Coherent.exec {i : Instr} {s t : State} (h : Coherent s) (hr : s.rxs = .none) (hf : s.fault = none)
    (hpc : s.pc < 256) (hfw : s.params.prog[s.pc]? = some (encode i)) (hexec : exec i s = .next t) : Coherent t := by
  obtain ⟨p, l, _, rfl⟩ | ⟨p, _, rfl⟩ | ⟨sel, _, rfl⟩ | ⟨_, hlcd⟩ | ⟨_, _, rfl⟩ | ⟨rfl, hin, rfl⟩ | ⟨_, _, rfl⟩ |
    ⟨a, _, rfl⟩ := exec_next hexec
  · exact h.idle_step hr rfl rfl (Latched.pinout h.latched p l) hpc hf
  · exact h.idle_step hr rfl rfl (Latched.pinin h.latched p) hpc hf
  · exact h.idle_step hr rfl rfl h.latched hpc hf
  · exact h.lcdOutcome hr hf hpc hlcd
  · exact h.raiseFault hr (.refl s) _ _
  · exact {
      latched := h.latched
      accClear := fun _ => Port.read_fill none
      accSampled := nofun
      rxdCleared := fun _ => rfl
      rxInput := fun _ => hin
      rxIndex := fun _ => hfw
      pcBound := h.pcBound
      faultFits := fun _ h0 => nomatch hf.symm.trans h0 }
  · exact h.raiseFault hr (.refl s) _ _
  · exact h.idle_step hr rfl rfl h.latched a.isLt.le hf

/-- A poll stays in the hunt, or goes to the first sample with no cell written (rules R33, R34). -/
theorem Coherent.rxHunt {s t : State} (h : Coherent s) (hr : s.rxs = .hunt) (hf : s.fault = none)
    (hhunt : rxHunt s = .next t) : Coherent t := by
  have hne : s.rxs ≠ .none := by simp [hr]
  have hclear := h.accClear (by simp [hr])
  obtain ⟨_, rfl⟩ | ⟨_, rfl⟩ := rxHunt_next hhunt
  · exact {
      latched := h.latched
      accClear := fun _ => hclear
      accSampled := fun h0 => nomatch hr.symm.trans h0
      rxdCleared := fun _ => h.rxdCleared hne
      rxInput := fun _ => h.rxInput hne
      rxIndex := fun _ => h.rxIndex hne
      pcBound := h.pcBound
      faultFits := fun _ h0 => nomatch hf.symm.trans h0 }
  · exact {
      latched := h.latched
      accClear := fun h0 => absurd rfl h0
      accSampled := fun _ k => by
        show (s.acc.read k).isSome = decide (k < 0)
        rw [hclear k]
        simp
      rxdCleared := fun _ => h.rxdCleared hne
      rxInput := fun _ => h.rxInput hne
      rxIndex := fun _ => h.rxIndex hne
      pcBound := h.pcBound
      faultFits := fun _ h0 => nomatch hf.symm.trans h0 }

/-- The written cells after the sample of bit `k` are those up to `k` (rule R33). -/
theorem isSome_read_write_acc {acc : Port (Option Bit)} {k : Fin 8} (v : Bit) (hk : k ≠ 7)
    (h : ∀ j, (acc.read j).isSome = decide (j < k)) (j : Fin 8) :
    ((acc.write k (some v)).read j).isSome = decide (j < k + 1) := by
  have hlt : j < k + 1 ↔ j = k ∨ j < k := by omega
  rw [Port.read_write]
  split
  · next hj => exact (decide_eq_true (hlt.mpr (.inl hj))).symm
  · next hj => simp [hlt, hj, h]

/-- A sample goes on to the next bit, or ends the receive with no cell written (rules R163, R164). -/
theorem Coherent.rxSample {s t : State} (h : Coherent s) (hr : s.rxs = .sample) (hf : s.fault = none)
    (hpc : s.pc < 256) (hsample : rxSample s = .next t) : Coherent t := by
  have hne : s.rxs ≠ .none := by simp [hr]
  obtain ⟨hk, rfl⟩ | ⟨_, b, _, rfl⟩ := rxSample_next hsample
  · exact {
      latched := h.latched
      accClear := fun h0 => absurd hr h0
      accSampled := fun _ => isSome_read_write_acc s.rxLevel hk (h.accSampled hr)
      rxdCleared := fun _ => h.rxdCleared hne
      rxInput := fun _ => h.rxInput hne
      rxIndex := fun _ => h.rxIndex hne
      pcBound := h.pcBound
      faultFits := fun _ h0 => nomatch hf.symm.trans h0 }
  · exact .of_idle rfl (Port.read_fill none) h.latched hpc fun _ h0 => nomatch hf.symm.trans h0

/-- A word is fetched below 256 only (rules R12, R35). -/
theorem pc_lt_of_fetch {s : State} {w : Word16} (hw : s.params.wf = true) (hfw : s.params.prog[s.pc]? = some w) :
    s.pc < 256 := by
  obtain ⟨hpc, _⟩ := List.getElem?_eq_some_iff.mp hfw
  exact hpc.trans_le (Params.length_prog_le hw)

/-- Settles O43: kind of step by kind of step. -/
theorem stepKeepsCoherence : Obligations.StepKeepsCoherence := by
  intro s t h hstep
  obtain ⟨hw, hf, ⟨hr, hhunt⟩ | ⟨hr, hsample⟩ | ⟨hr, _, rfl⟩ | ⟨hr, w, why, _, _, rfl⟩ | ⟨hr, w, i, hfw, hd, hexec⟩⟩ :=
    step_next hstep
  · exact h.rxHunt hr hf hhunt
  · exact h.rxSample hr hf (pc_lt_of_fetch hw (h.rxIndex (by simp [hr]))) hsample
  · exact h.raiseFault hr (.refl s) _ _
  · exact h.raiseFault hr (.refl s) _ _
  · exact h.exec hr hf (pc_lt_of_fetch hw hfw) (encode_of_decode hd ▸ hfw) hexec

theorem powerOn_coherent (p : Params) : Coherent (State.powerOn p) := by
  refine .of_idle rfl (Port.read_fill none) (fun q hq => ?_) (Nat.zero_le _) nofun
  rw [powerOn_dir_read] at hq
  split at hq <;> cases hq

/-- Settles O44. -/
theorem powerOnInvariants : Obligations.PowerOnInvariants :=
  ⟨fun p => ⟨powerOn_coherent p, powerOn_timeOrdered p, powerOn_strobeTimed p, powerOn_edgesRise p⟩,
    powerOn_coherent Params.tp⟩

/-! ### Progress -/

/-- The loop of `LCDSTR` always ends with a next state. -/
theorem sendString_progress : ∀ (n : Nat) {s : State} {e : Bit}, LcdReady s e → ∃ t, sendString n s = .next t
  | 0, s, _, _ => ⟨s.raiseFault .romRange Memory.size, rfl⟩
  | n + 1, s, e, hs => by
    by_cases hzero : s.params.rom.read (256 - (n + 1)) = 0
    · exact ⟨_, sendString_of_zero hzero⟩
    · obtain ⟨u, hu, _, _, hsent⟩ := send2_sent true (s.params.rom.read (256 - (n + 1))) hs.pins hs.eLatch
      obtain ⟨t, ht⟩ := sendString_progress n (hsent.ready hs)
      exact ⟨t, by rw [sendString_of_char rfl hzero, hu, andThen_next, ht]⟩

/-- An LCD operation that passes its check completes or runs off ROM. -/
theorem exec_lcd_progress {i : Instr} {s : State} {e : Bit} (hs : LcdReady s e) (hi : isLcd i = true) :
    ∃ t, exec i s = .next t := by
  have hbyte (b : Byte) : (∃ t, exec (.lcdcmd b) s = .next t) ∧ ∃ t, exec (.lcdchr b) s = .next t :=
    ⟨(lcdByteOperationsSendTwoTransfers s e b hs _ _ (.inl ⟨rfl, rfl⟩)).imp fun _ h => h.1,
      (lcdByteOperationsSendTwoTransfers s e b hs _ _ (.inr (.inl ⟨rfl, rfl⟩))).imp fun _ h => h.1⟩
  cases i with
  | lcdcmd1 b => exact (lcdcmd1SendsOneTransfer s e b hs).imp fun _ h => h.1
  | lcdcmd b => exact (hbyte b).1
  | lcdchr b => exact (hbyte b).2
  | lcdchrr =>
    cases hr : s.rxd with
    | none => exact ⟨_, exec_lcdchrr_of_unwritten hr⟩
    | some b => exact exec_lcdchrr_of_written hr ▸ (hbyte b).2
  | lcdstr a => exact exec_lcdstr_of_ready hs a ▸ sendString_progress _ hs
  | lcdinit => exact (lcdinitSendsHandshake s e hs).imp fun _ h => h.1
  | _ => cases hi

/-- In a coherent state no operation reads an unwritten latch (rule R130). -/
theorem exec_progress {s : State} (h : Coherent s) (hw : s.params.wf = true) (i : Instr) : ∃ t, exec i s = .next t := by
  cases hi : isLcd i with
  | false =>
    cases i with
    | rxbyte =>
      by_cases hin : s.dir.read s.params.cfg.pinRX = some .input
      · exact ⟨_, exec_rxbyte_of_input hin⟩
      · exact ⟨_, exec_rxbyte_of_not_input hin⟩
    | pinout | pinin | delay | jmp => exact ⟨_, rfl⟩
    | _ => cases hi
  | true =>
    by_cases hout : ∀ p ∈ lcdPins s.params.cfg, s.dir.read p = some .output
    · obtain ⟨e, he⟩ := h.latched _ (hout s.params.cfg.pinE (by simp [lcdPins]))
      exact exec_lcd_progress ⟨hout, he, Params.nodup_pins hw⟩ hi
    · push Not at hout
      obtain ⟨p, hp, hdir⟩ := hout
      by_cases hr : i = .lcdchrr ∧ s.rxd = none
      · exact ⟨_, hr.1 ▸ exec_lcdchrr_of_unwritten hr.2⟩
      · obtain ⟨k, hk⟩ := exec_eq_withLcdCheck hi fun hi0 h0 => hr ⟨hi0, h0⟩
        exact ⟨_, hk.trans (withLcdCheck_fails hp hdir k)⟩

/-- Eight written cells are a byte (rule R33). -/
theorem exists_accByte {acc : Port (Option Bit)} (h : ∀ k, ∃ v, acc.read k = some v) : ∃ b, accByte acc = some b := by
  choose v hv using h
  refine ⟨BitVec.ofFnLE v, accByte_of_cells fun k => ?_⟩
  rw [hv, BitVec.getLsbD_ofFnLE, dif_pos k.isLt]

/-- In a coherent state the last sample finds no cell unwritten (rule R33). -/
theorem rxSample_progress {s : State} (h : Coherent s) (hr : s.rxs = .sample) : ∃ t, rxSample s = .next t := by
  by_cases hk : s.rxk = 7
  · have hcells : ∀ k, ∃ v, (s.acc.write s.rxk (some s.rxLevel)).read k = some v := fun k => by
      rw [Port.read_write]
      split
      · exact ⟨_, rfl⟩
      · next hne =>
        have hsome := h.accSampled hr k
        have hlt : k < s.rxk := lt_of_le_of_ne (hk.symm ▸ Fin.le_last k) hne
        rw [decide_eq_true hlt] at hsome
        exact Option.isSome_iff_exists.mp hsome
    obtain ⟨b, hb⟩ := exists_accByte hcells
    rw [rxSample, if_pos hk, rxComplete, delay_acc, delay_acc, sampleBit_acc, hb]
    exact ⟨_, rfl⟩
  · exact ⟨_, rxSample_of_ne hk⟩

/-- Settles O45: kind of step by kind of step. -/
theorem coherentStatesStep : Obligations.CoherentStatesStep := by
  intro s h hw hf
  cases hr : s.rxs with
  | hunt =>
    rw [step_of_hunt hw hf hr]
    cases hlevel : s.rxLevel with
    | true => exact ⟨_, rxHunt_of_high hlevel⟩
    | false => exact ⟨_, rxHunt_of_low hlevel⟩
  | sample =>
    rw [step_of_sample hw hf hr]
    exact rxSample_progress h hr
  | none =>
    cases hfw : s.params.prog[s.pc]? with
    | none => exact ⟨_, step_past_program hw hf hr (List.getElem?_eq_none_iff.mp hfw)⟩
    | some w =>
      rw [step_eq_runWord hw hf hr hfw]
      cases hd : decode w with
      | op i => exact runWord_op hd ▸ exec_progress h hw i
      | illegal why => exact ⟨_, runWord_illegal hd⟩

end Sys2Proof.Machine
end

section
/-! PROOFS. Operations do not see the serial line (42_uart_rx.md rule R170; 70_reset_and_hazards.md rule R247): part by part, a meaning run on another line answers the same but for the line. -/

namespace Sys2Proof.Machine

/-- A meaning that answers the same on any other line, but for the line itself. -/
def IgnoresLine (k : State → Result) : Prop :=
  ∀ (s : State) (w : Waveform), k (s.onLine w) = mapNext (fun t => t.onLine w) (k s)

/-! ### How meanings are put together -/

/-- An update that does not look at the line. -/
theorem ignoresLine_next {f : State → State} (h : ∀ (s : State) (w : Waveform), f (s.onLine w) = (f s).onLine w) :
    IgnoresLine fun s => .next (f s) := fun s w => congrArg Host.Outcome.next (h s w)

theorem IgnoresLine.andThen {j k : State → Result} (hj : IgnoresLine j) (hk : IgnoresLine k) :
    IgnoresLine fun s => andThen (j s) k := by
  intro s w
  show Machine.andThen (j (s.onLine w)) k = mapNext _ (Machine.andThen (j s) k)
  rw [hj]
  cases j s with
  | next u => exact hk u w
  | fault r => rfl
  | refused r => rfl

/-- A meaning that starts from an updated state. -/
theorem IgnoresLine.comp {k : State → Result} (hk : IgnoresLine k) {f : State → State}
    (h : ∀ (s : State) (w : Waveform), f (s.onLine w) = (f s).onLine w) : IgnoresLine fun s => k (f s) := by
  intro s w
  show k (f (s.onLine w)) = _
  rw [h, hk]

theorem withLatch_onLine {s : State} {w : Waveform} {p : PortBit} {j k : Bit → Result}
    (h : ∀ v, j v = mapNext (fun t => t.onLine w) (k v)) :
    withLatch (s.onLine w) p j = mapNext (fun t => t.onLine w) (withLatch s p k) := by
  have hlatch : (s.onLine w).out.read p = s.out.read p := rfl
  unfold withLatch
  rw [hlatch]
  cases s.out.read p with
  | some v => exact h v
  | none => rfl

theorem IgnoresLine.withLcdCheck {k : State → Result} (hk : IgnoresLine k) : IgnoresLine fun s => withLcdCheck s k := by
  intro s w
  have hcheck : (s.onLine w).lcdCheck = s.lcdCheck := rfl
  show Machine.withLcdCheck (s.onLine w) k = mapNext _ (Machine.withLcdCheck s k)
  unfold Machine.withLcdCheck
  rw [hcheck]
  cases s.lcdCheck with
  | some p => rfl
  | none => exact hk s w

/-! ### The LCD sequences -/

theorem ignoresLine_strobe : IgnoresLine strobe := fun _ _ =>
  withLatch_onLine fun _ => withLatch_onLine fun _ => withLatch_onLine fun _ => withLatch_onLine fun _ =>
    withLatch_onLine fun _ => withLatch_onLine fun _ => rfl

theorem ignoresLine_transfer (n : Nibble) : IgnoresLine (transfer n) :=
  ignoresLine_strobe.comp (f := fun s => s.nibbleOut n) fun _ _ => rfl

theorem ignoresLine_send2 (rs : Bit) (b : Byte) : IgnoresLine (send2 rs b) :=
  ((ignoresLine_transfer (highNibble b)).comp (f := fun s => s.pinWrite s.params.cfg.pinRS rs) fun _ _ => rfl).andThen
    (ignoresLine_transfer (lowNibble b))

theorem ignoresLine_send1 (b : Byte) : IgnoresLine (send1 b) := fun s w =>
  ignoresLine_transfer (oneshotNibble s.params.cfg b) (s.pinWrite s.params.cfg.pinRS false) w

theorem ignoresLine_sendInit (c : InitSend) : IgnoresLine (sendInit c) :=
  match c with
  | .oneShot b => ignoresLine_send1 b
  | .twoNibble b => ignoresLine_send2 false b

theorem ignoresLine_sendAll : ∀ cs : List InitSend, IgnoresLine (sendAll cs)
  | [] => fun _ _ => rfl
  | c :: cs => (ignoresLine_sendInit c).andThen (ignoresLine_sendAll cs)

theorem ignoresLine_sendString : ∀ n : Nat, IgnoresLine (sendString n)
  | 0 => fun _ _ => rfl
  | n + 1 => fun s w => by
    by_cases hzero : s.params.rom.read (256 - (n + 1)) = 0
    · rw [sendString_of_zero hzero, sendString_of_zero (s := s.onLine w) hzero]
      rfl
    · rw [sendString_of_char rfl hzero, sendString_of_char (s := s.onLine w) rfl hzero]
      exact (ignoresLine_send2 true _).andThen (ignoresLine_sendString n) s w

theorem ignoresLine_finish : IgnoresLine finish := ignoresLine_next fun _ _ => rfl

/-- `LCDCHR`, and `LCDCHRR` with its byte. -/
theorem ignoresLine_execLcdchr (b : Byte) : IgnoresLine (execLcdchr b) :=
  ((ignoresLine_send2 true b).andThen ignoresLine_finish).withLcdCheck

/-! ### Operations -/

/-- No operation sees the line. -/
theorem ignoresLine_exec (i : Instr) : IgnoresLine (exec i) := by
  cases i with
  | pinout p l => exact ignoresLine_next fun _ _ => rfl
  | pinin p => exact ignoresLine_next fun _ _ => rfl
  | delay sel => exact ignoresLine_next fun _ _ => rfl
  | jmp a => exact ignoresLine_next fun _ _ => rfl
  | lcdcmd1 b => exact ((ignoresLine_send1 b).andThen ignoresLine_finish).withLcdCheck
  | lcdcmd b => exact ((ignoresLine_send2 false b).andThen ignoresLine_finish).withLcdCheck
  | lcdchr b => exact ignoresLine_execLcdchr b
  | lcdchrr =>
    intro s w
    cases hr : s.rxd with
    | none =>
      rw [exec_lcdchrr_of_unwritten hr, exec_lcdchrr_of_unwritten (s := s.onLine w) hr]
      rfl
    | some b =>
      rw [exec_lcdchrr_of_written hr, exec_lcdchrr_of_written (s := s.onLine w) hr]
      exact ignoresLine_execLcdchr b s w
  | lcdstr a => exact (ignoresLine_sendString _).withLcdCheck
  | lcdinit =>
    have hsends : IgnoresLine fun s => sendAll (initSends s.params.cfg) (s.delay s.params.cfg.tPwrup) := fun s w =>
      ignoresLine_sendAll (initSends s.params.cfg) (s.delay s.params.cfg.tPwrup) w
    exact (hsends.andThen ignoresLine_finish).withLcdCheck
  | rxbyte =>
    intro s w
    by_cases hin : s.dir.read s.params.cfg.pinRX = some .input
    · rw [exec_rxbyte_of_input hin, exec_rxbyte_of_input (s := s.onLine w) hin]
      rfl
    · rw [exec_rxbyte_of_not_input hin, exec_rxbyte_of_not_input (s := s.onLine w) hin]
      rfl

/-- Settles O33. -/
theorem operationsIgnoreTheLine : Obligations.OperationsIgnoreTheLine := fun s w i => ignoresLine_exec i s w

end Sys2Proof.Machine
end

section
/-! PROOFS. The ROM as a byte list (20_memory.md rules R60 to R62): what is read after a byte is placed, and that a list in canonical form is known by its reads. -/

namespace Sys2Proof

/-! ### Reads of canonical lists -/

theorem Memory.wfFrom_cons {lo k : Nat} {v : Byte} {m : Memory} (h : Memory.wfFrom lo ((k, v) :: m) = true) :
    lo ≤ k ∧ v ≠ Memory.blank ∧ Memory.wfFrom (k + 1) m = true := by
  simp only [Memory.wfFrom, Bool.and_eq_true, decide_eq_true_eq] at h
  obtain ⟨⟨⟨hlo, _⟩, hv⟩, hrest⟩ := h
  exact ⟨hlo, hv, hrest⟩

theorem Memory.read_cons_self (k : Nat) (v : Byte) (m : Memory) : Memory.read ((k, v) :: m) k = v := if_pos rfl

theorem Memory.read_cons_of_ne {k a : Nat} (v : Byte) (m : Memory) (h : k ≠ a) :
    Memory.read ((k, v) :: m) a = m.read a := if_neg h

/-- Below its first address a canonical list reads blank. -/
theorem Memory.read_of_lt {lo a : Nat} : ∀ {m : Memory}, Memory.wfFrom lo m = true → a < lo → m.read a = Memory.blank
  | [], _, _ => rfl
  | (k, v) :: m, hw, ha => by
    obtain ⟨hlo, _, hrest⟩ := wfFrom_cons hw
    rw [read_cons_of_ne v m (by omega), read_of_lt hrest (by omega)]

/-- What is read after an entry is set. -/
theorem Memory.read_put {a : Nat} {b : Byte} (x : Nat) : ∀ {lo : Nat} {m : Memory}, Memory.wfFrom lo m = true →
    (m.put a b).read x = if x = a then b else m.read x
  | _, [], _ => by
    unfold Memory.put
    split
    · next hb => simp [Memory.read, hb]
    · simp [Memory.read, eq_comm]
  | lo, (k, v) :: m, hw => by
    obtain ⟨_, _, hrest⟩ := wfFrom_cons hw
    unfold Memory.put
    by_cases hxa : x = a
    · subst hxa
      rw [if_pos rfl]
      rcases lt_trichotomy x k with hlt | rfl | hgt
      · rw [if_pos hlt]
        split
        · next hb => rw [read_cons_of_ne v m (by omega), read_of_lt hrest (by omega), hb]
        · rw [read_cons_self]
      · rw [if_neg (lt_irrefl x), if_pos rfl]
        split
        · next hb => rw [read_of_lt hrest (by omega), hb]
        · rw [read_cons_self]
      · rw [if_neg (by omega), if_neg (by omega), read_cons_of_ne v _ (by omega), read_put x hrest, if_pos rfl]
    · rw [if_neg hxa]
      split
      · split
        · rfl
        · rw [read_cons_of_ne b _ (Ne.symm hxa)]
      · split
        · next hak =>
          rw [read_cons_of_ne v m (by omega)]
          split
          · rfl
          · rw [read_cons_of_ne b m (by omega)]
        · simp only [Memory.read]
          rw [read_put x hrest, if_neg hxa]

/-- What is read after a byte is placed. -/
theorem Memory.read_store {m : Memory} (hw : m.wf = true) (a : Nat) (b : Byte) (x : Nat) :
    (m.store a b).read x = if x = a ∧ a < 256 then b else m.read x := by
  by_cases ha : a < 256
  · rw [Memory.store, if_pos (show a < Memory.size from ha), read_put x hw]
    simp only [ha, and_true]
  · rw [Memory.store, if_neg (show ¬ a < Memory.size from ha), if_neg fun h => ha h.2]

/-- Canonical lists that read alike are the same list. -/
theorem Memory.eq_of_read_eq : ∀ {lo : Nat} {m m' : Memory}, Memory.wfFrom lo m = true → Memory.wfFrom lo m' = true →
    (∀ x, m.read x = m'.read x) → m = m'
  | _, [], [], _, _, _ => rfl
  | _, [], (k, v) :: m', _, hw', h => by
    obtain ⟨_, hv, _⟩ := wfFrom_cons hw'
    exact absurd ((h k).trans (read_cons_self k v m')).symm hv
  | _, (k, v) :: m, [], hw, _, h => by
    obtain ⟨_, hv, _⟩ := wfFrom_cons hw
    exact absurd ((read_cons_self k v m).symm.trans (h k)) hv
  | _, (k, v) :: m, (k', v') :: m', hw, hw', h => by
    obtain ⟨_, hv, hrest⟩ := wfFrom_cons hw
    obtain ⟨_, hv', hrest'⟩ := wfFrom_cons hw'
    have hk : k = k' := by
      rcases lt_trichotomy k k' with hlt | heq | hgt
      · have hread := h k
        rw [read_cons_self, read_cons_of_ne v' m' (by omega), read_of_lt hrest' (by omega)] at hread
        exact absurd hread hv
      · exact heq
      · have hread := h k'
        rw [read_cons_self, read_cons_of_ne v m (by omega), read_of_lt hrest (by omega)] at hread
        exact absurd hread.symm hv'
    subst hk
    have hvv : v = v' := by
      have hread := h k
      rwa [read_cons_self, read_cons_self] at hread
    have htail : m = m' := eq_of_read_eq hrest hrest' fun x => by
      by_cases hx : k = x
      · rw [read_of_lt hrest (by omega), read_of_lt hrest' (by omega)]
      · have hread := h x
        rwa [read_cons_of_ne v m hx, read_cons_of_ne v' m' hx] at hread
    rw [hvv, htail]

/-- What is read after bytes are placed at rising addresses. -/
theorem Memory.read_storeAll (x : Nat) : ∀ {bs : List Byte} {m : Memory} {a : Nat}, m.wf = true →
    (m.storeAll a bs).read x = if a ≤ x ∧ x < 256 then bs[x - a]?.getD (m.read x) else m.read x
  | [], m, a, _ => by simp [Memory.storeAll]
  | b :: bs, m, a, hw => by
    rw [Memory.storeAll, read_storeAll x (store_wf hw), read_store hw]
    rcases lt_trichotomy x a with hlt | rfl | hgt
    · rw [if_neg (by omega), if_neg (by omega), if_neg (by omega)]
    · rw [if_neg (by omega), Nat.sub_self]
      simp
    · have hindex : x - a = x - (a + 1) + 1 := by omega
      have hat : ¬ (x = a ∧ a < 256) := by omega
      have hle : a + 1 ≤ x ↔ a ≤ x := by omega
      rw [hindex, List.getElem?_cons_succ, if_neg hat]
      simp only [hle]

/-! ### The obligations -/

/-- Settles O47: the second part because both lists are canonical and read alike. -/
theorem placedByteReadsBack : Obligations.PlacedByteReadsBack := by
  intro m a b hw ha
  have hread (m : Memory) (hw : m.wf = true) (b : Byte) (x : Nat) :
      (m.store a b).read x = if x = a then b else m.read x := by
    rw [Memory.read_store hw]
    simp only [ha, and_true]
  refine ⟨hread m hw b, Memory.eq_of_read_eq (Memory.store_wf (Memory.store_wf hw)) hw fun x => ?_⟩
  rw [hread _ (Memory.store_wf hw), hread m hw]
  split
  · next hx => rw [hx]
  · rfl

/-- Settles O48. -/
theorem labelRomHoldsLabel : Obligations.LabelRomHoldsLabel := by
  intro a
  have hread (x : Nat) : (labelRom a).read x =
      if a.toNat ≤ x ∧ x < 256 then labelBytes[x - a.toNat]?.getD 0 else 0 := Memory.read_storeAll x rfl
  refine ⟨fun i hi hlt => ?_, fun x hx => ?_⟩
  · rw [hread, if_pos ⟨Nat.le_add_right _ _, hlt⟩, Nat.add_sub_cancel_left,
      List.getElem?_eq_getElem (show i < labelBytes.length from hi)]
    rfl
  · rw [hread]
    split
    · rw [List.getElem?_eq_none (show labelBytes.length ≤ x - a.toNat by show 17 ≤ _; omega)]
      rfl
    · rfl

end Sys2Proof

namespace Sys2Proof.Machine

/-- Settles O46. -/
theorem romReads : Obligations.RomReads := by
  refine ⟨fun m a => ⟨memRead_of_lt, fun ha => if_pos ha⟩, fun s => ?_, fun s t h => ?_⟩
  · rw [← raiseFault_of_ne_pcRange s (by decide) Memory.size]
    rfl
  · rw [(step_extends h).params_eq]

end Sys2Proof.Machine
end

section
/-! PROOFS. A launch (00_scope.md rule R12; 70_reset_and_hazards.md rule R242) and the model's load of a word where the machine fetches next (log entry 3). -/

namespace Sys2Proof

/-! ### A word placed in a program -/

theorem length_placeWord (l : List Word16) (i : Nat) (w : Word16) :
    (placeWord l i w).length = max l.length (i + 1) := by
  simp only [placeWord, List.length_set, List.length_append, List.length_replicate]
  omega

theorem placeWord_self (l : List Word16) (i : Nat) (w : Word16) : (placeWord l i w)[i]? = some w := by
  refine List.getElem?_set_self ?_
  rw [List.length_append, List.length_replicate]
  omega

/-- The words of the program that are not at the index stay. -/
theorem placeWord_of_lt {l : List Word16} {i j : Nat} (w : Word16) (hj : j < l.length) (hne : j ≠ i) :
    (placeWord l i w)[j]? = l[j]? := by
  rw [placeWord, List.getElem?_set_ne (Ne.symm hne), List.getElem?_append_left hj]

/-- A shorter program is filled with 0x0000 up to the index. -/
theorem placeWord_of_gap {l : List Word16} {i j : Nat} (w : Word16) (hj : l.length ≤ j) (hlt : j < i) :
    (placeWord l i w)[j]? = some 0 := by
  rw [placeWord, List.getElem?_set_ne (Ne.symm hlt.ne), List.getElem?_append_right hj, List.getElem?_replicate,
    if_pos (by omega)]

/-- A program with a word placed below 256 is as well formed as before. -/
theorem wf_placeWord {p : Params} {i : Nat} (hw : p.wf = true) (hi : i < 256) (w : Word16) :
    ({ p with prog := placeWord p.prog i w } : Params).wf = true := by
  obtain ⟨hbit, hpoll, hpins, hmin, hmax⟩ := Params.wf_iff.mp hw
  refine Params.wf_iff.mpr ⟨hbit, hpoll, hpins, ?_, ?_⟩ <;>
    · rw [length_placeWord]
      omega

namespace Machine

/-! ### The obligations -/

/-- Settles O50: the five conditions are `Params.wf`. -/
theorem launchTakesWellFormedOnly : Obligations.LaunchTakesWellFormedOnly := by
  refine fun p => ⟨fun h => if_pos (Params.wf_iff.mpr h), fun h => ?_⟩
  have hw : ¬ p.wf = true := fun hw => h (Params.wf_iff.mp hw)
  exact ⟨if_neg hw, fun s hs => if_neg (hs ▸ hw)⟩

theorem loadIndex_lt (s : State) : s.loadIndex < 256 := by
  unfold State.loadIndex
  split
  · assumption
  · decide

/-- A table word of 16 bits is placed as it is. -/
theorem withFetchWord_sixteen (s : State) (w : Nat) : s.withFetchWord 16 w = s.loadWord (BitVec.ofNat 16 w) :=
  congrArg s.loadWord (BitVec.eq_of_toNat_eq (by simp))

/-- Settles O51. -/
theorem loadedWordRunsNext : Obligations.LoadedWordRunsNext := by
  intro s t w i hw hd ht
  rw [withFetchWord_sixteen] at ht
  subst ht
  have hself : (s.loadWord (BitVec.ofNat 16 w)).params.prog[s.loadIndex]? = some (BitVec.ofNat 16 w) :=
    placeWord_self s.params.prog s.loadIndex _
  exact ⟨step_eq_exec (wf_placeWord hw (loadIndex_lt s) _) rfl rfl hself hd, rfl, length_placeWord _ _ _, hself,
    fun _ hj hne => placeWord_of_lt _ hj hne, fun _ hj hlt => placeWord_of_gap _ hj hlt⟩

end Machine

end Sys2Proof
end
